-- ==== Sys2Proof/Word.lean ====
section
/-! DEFINITION. The widths of the machine: words, bytes, register indices (spec/00_scope.md R7, R9). -/

namespace Sys2Proof

/-- A register value, an address, an immediate or an instruction word: 32 bits (00_scope.md R7, R9). -/
abbrev Word := BitVec 32

/-- A byte of memory or of an 8-bit device register (20_memory.md R66). -/
abbrev Byte := BitVec 8

/-- A register index: a 5-bit field of the instruction word, every value 0 to 31 legal
(10_state.md R31, 30_encoding.md R102). -/
abbrev RegIdx := BitVec 5

end Sys2Proof
end

