-- ==== Sys2Proof/Syntax.lean ====
section
/-! DEFINITION. The instructions: one constructor per row of spec/opcode_table.json, in the table's
order (30_encoding.md R112). A field holds what the format's field holds (R101): a 12-bit immediate of
formats I and S, the 20 upper bits of format U, and, for formats B and J, the byte offset itself, 13 and
21 bits with bit 0 present (R106, R108), so that evenness is a well-formedness condition. -/

namespace Sys2Proof

/-- An instruction (30_encoding.md R112). -/
inductive Instr where
  /-- 40_upper_immediate.md R140. -/
  | lui (rd : RegIdx) (imm : BitVec 20)
  /-- 40_upper_immediate.md R141. -/
  | auipc (rd : RegIdx) (imm : BitVec 20)
  /-- 41_jumps.md R150. -/
  | jal (rd : RegIdx) (off : BitVec 21)
  /-- 41_jumps.md R151. -/
  | jalr (rd rs1 : RegIdx) (imm : BitVec 12)
  /-- 42_branches.md R161. -/
  | beq (rs1 rs2 : RegIdx) (off : BitVec 13)
  /-- 42_branches.md R162. -/
  | bne (rs1 rs2 : RegIdx) (off : BitVec 13)
  /-- 42_branches.md R163. -/
  | blt (rs1 rs2 : RegIdx) (off : BitVec 13)
  /-- 42_branches.md R164. -/
  | bge (rs1 rs2 : RegIdx) (off : BitVec 13)
  /-- 42_branches.md R165. -/
  | bltu (rs1 rs2 : RegIdx) (off : BitVec 13)
  /-- 42_branches.md R166. -/
  | bgeu (rs1 rs2 : RegIdx) (off : BitVec 13)
  /-- 43_loads.md R171. -/
  | lb (rd rs1 : RegIdx) (imm : BitVec 12)
  /-- 43_loads.md R172. -/
  | lh (rd rs1 : RegIdx) (imm : BitVec 12)
  /-- 43_loads.md R173. -/
  | lw (rd rs1 : RegIdx) (imm : BitVec 12)
  /-- 43_loads.md R174. -/
  | lbu (rd rs1 : RegIdx) (imm : BitVec 12)
  /-- 43_loads.md R175. -/
  | lhu (rd rs1 : RegIdx) (imm : BitVec 12)
  /-- 44_stores.md R181. -/
  | sb (rs1 rs2 : RegIdx) (imm : BitVec 12)
  /-- 44_stores.md R182. -/
  | sh (rs1 rs2 : RegIdx) (imm : BitVec 12)
  /-- 44_stores.md R183. -/
  | sw (rs1 rs2 : RegIdx) (imm : BitVec 12)
  /-- 45_op_imm.md R191. -/
  | addi (rd rs1 : RegIdx) (imm : BitVec 12)
  /-- 45_op_imm.md R192. -/
  | slli (rd rs1 : RegIdx) (shamt : BitVec 5)
  /-- 45_op_imm.md R193. -/
  | slti (rd rs1 : RegIdx) (imm : BitVec 12)
  /-- 45_op_imm.md R194. -/
  | sltiu (rd rs1 : RegIdx) (imm : BitVec 12)
  /-- 45_op_imm.md R195. -/
  | xori (rd rs1 : RegIdx) (imm : BitVec 12)
  /-- 45_op_imm.md R196. -/
  | srli (rd rs1 : RegIdx) (shamt : BitVec 5)
  /-- 45_op_imm.md R197. -/
  | srai (rd rs1 : RegIdx) (shamt : BitVec 5)
  /-- 45_op_imm.md R198. -/
  | ori (rd rs1 : RegIdx) (imm : BitVec 12)
  /-- 45_op_imm.md R199. -/
  | andi (rd rs1 : RegIdx) (imm : BitVec 12)
  /-- 46_op.md R206. -/
  | add (rd rs1 rs2 : RegIdx)
  /-- 46_op.md R207. -/
  | sub (rd rs1 rs2 : RegIdx)
  /-- 46_op.md R208. -/
  | sll (rd rs1 rs2 : RegIdx)
  /-- 46_op.md R209. -/
  | slt (rd rs1 rs2 : RegIdx)
  /-- 46_op.md R210. -/
  | sltu (rd rs1 rs2 : RegIdx)
  /-- 46_op.md R211. -/
  | xor (rd rs1 rs2 : RegIdx)
  /-- 46_op.md R212. -/
  | srl (rd rs1 rs2 : RegIdx)
  /-- 46_op.md R213. -/
  | sra (rd rs1 rs2 : RegIdx)
  /-- 46_op.md R214. -/
  | or (rd rs1 rs2 : RegIdx)
  /-- 46_op.md R215. -/
  | and (rd rs1 rs2 : RegIdx)
  /-- 47_system.md R220: no operand. -/
  | mret
deriving DecidableEq, Repr

end Sys2Proof
end

