-- ==== Sys2Proof/Decode.lean ====
section
/-! DEFINITION. Decoding an instruction word and encoding an instruction, both written from the format table
(30_encoding.md R101), the immediate table (R103 to R109) and the decode table (R112). The decode table is
a list of rows: a row names a base opcode and, where the spec's table has no dash, a value of funct3, funct7
and rs2; a word is the instruction of the row it matches (R111), and no row means no instruction (R120). -/

namespace Sys2Proof

/-! ### Fields of the instruction word (30_encoding.md R101) -/

/-- `inst[6:0]`. -/
def opcodeOf (w : Word) : BitVec 7 := w.extractLsb' 0 7
/-- `inst[11:7]`. -/
def rdOf (w : Word) : RegIdx := w.extractLsb' 7 5
/-- `inst[14:12]`. -/
def funct3Of (w : Word) : BitVec 3 := w.extractLsb' 12 3
/-- `inst[19:15]`. -/
def rs1Of (w : Word) : RegIdx := w.extractLsb' 15 5
/-- `inst[24:20]`. -/
def rs2Of (w : Word) : RegIdx := w.extractLsb' 20 5
/-- `inst[31:25]`. -/
def funct7Of (w : Word) : BitVec 7 := w.extractLsb' 25 7

/-- The immediate field of format I, `inst[31:20]` (R104). -/
def fieldI (w : Word) : BitVec 12 := w.extractLsb' 20 12

/-- The immediate field of format S, `{inst[31:25], inst[11:7]}` (R105). -/
def fieldS (w : Word) : BitVec 12 := w.extractLsb' 25 7 ++ w.extractLsb' 7 5

/-- The immediate of format B, `{inst[31], inst[7], inst[30:25], inst[11:8], 0}` (R106). -/
def fieldB (w : Word) : BitVec 13 :=
  w.extractLsb' 31 1 ++ w.extractLsb' 7 1 ++ w.extractLsb' 25 6 ++ w.extractLsb' 8 4 ++ 0#1

/-- The immediate field of format U, `inst[31:12]` (R107). -/
def fieldU (w : Word) : BitVec 20 := w.extractLsb' 12 20

/-- The immediate of format J, `{inst[31], inst[19:12], inst[20], inst[30:21], 0}` (R108). -/
def fieldJ (w : Word) : BitVec 21 :=
  w.extractLsb' 31 1 ++ w.extractLsb' 12 8 ++ w.extractLsb' 20 1 ++ w.extractLsb' 21 10 ++ 0#1

/-! ### The base opcodes (30_encoding.md R110) -/

/-- LOAD. -/
def opLoad : BitVec 7 := 0b0000011#7
/-- OP-IMM. -/
def opOpImm : BitVec 7 := 0b0010011#7
/-- AUIPC. -/
def opAuipc : BitVec 7 := 0b0010111#7
/-- STORE. -/
def opStore : BitVec 7 := 0b0100011#7
/-- OP. -/
def opOp : BitVec 7 := 0b0110011#7
/-- LUI. -/
def opLui : BitVec 7 := 0b0110111#7
/-- BRANCH. -/
def opBranch : BitVec 7 := 0b1100011#7
/-- JALR. -/
def opJalr : BitVec 7 := 0b1100111#7
/-- JAL. -/
def opJal : BitVec 7 := 0b1101111#7
/-- SYSTEM. -/
def opSystem : BitVec 7 := 0b1110011#7

/-! ### The decode table (30_encoding.md R112) -/

/-- One row of the decode table: the fields it compares (`none` for a dash) and the instruction it reads. -/
structure DecodeRow where
  opcode : BitVec 7
  funct3 : Option (BitVec 3)
  funct7 : Option (BitVec 7)
  rs2 : Option (BitVec 5)
  build : Word → Instr

/-- A compared field matches; a dash always does (R111). -/
def fieldMatches {n : Nat} (want : Option (BitVec n)) (have_ : BitVec n) : Bool :=
  match want with
  | none => true
  | some v => v == have_

/-- A word matches a row exactly when `inst[6:0]` and every non-dash field do (R111). -/
def DecodeRow.isMatch (r : DecodeRow) (w : Word) : Bool :=
  r.opcode == opcodeOf w && fieldMatches r.funct3 (funct3Of w) && fieldMatches r.funct7 (funct7Of w)
    && fieldMatches r.rs2 (rs2Of w)

/-- Rows LUI, AUIPC, JAL, JALR. -/
def rowsUpperJump : List DecodeRow :=
  [⟨opLui, none, none, none, fun w => .lui (rdOf w) (fieldU w)⟩,
   ⟨opAuipc, none, none, none, fun w => .auipc (rdOf w) (fieldU w)⟩,
   ⟨opJal, none, none, none, fun w => .jal (rdOf w) (fieldJ w)⟩,
   ⟨opJalr, some 0b000#3, none, none, fun w => .jalr (rdOf w) (rs1Of w) (fieldI w)⟩]

/-- Rows BEQ to BGEU. -/
def rowsBranch : List DecodeRow :=
  [⟨opBranch, some 0b000#3, none, none, fun w => .beq (rs1Of w) (rs2Of w) (fieldB w)⟩,
   ⟨opBranch, some 0b001#3, none, none, fun w => .bne (rs1Of w) (rs2Of w) (fieldB w)⟩,
   ⟨opBranch, some 0b100#3, none, none, fun w => .blt (rs1Of w) (rs2Of w) (fieldB w)⟩,
   ⟨opBranch, some 0b101#3, none, none, fun w => .bge (rs1Of w) (rs2Of w) (fieldB w)⟩,
   ⟨opBranch, some 0b110#3, none, none, fun w => .bltu (rs1Of w) (rs2Of w) (fieldB w)⟩,
   ⟨opBranch, some 0b111#3, none, none, fun w => .bgeu (rs1Of w) (rs2Of w) (fieldB w)⟩]

/-- Rows LB to SW. -/
def rowsMemory : List DecodeRow :=
  [⟨opLoad, some 0b000#3, none, none, fun w => .lb (rdOf w) (rs1Of w) (fieldI w)⟩,
   ⟨opLoad, some 0b001#3, none, none, fun w => .lh (rdOf w) (rs1Of w) (fieldI w)⟩,
   ⟨opLoad, some 0b010#3, none, none, fun w => .lw (rdOf w) (rs1Of w) (fieldI w)⟩,
   ⟨opLoad, some 0b100#3, none, none, fun w => .lbu (rdOf w) (rs1Of w) (fieldI w)⟩,
   ⟨opLoad, some 0b101#3, none, none, fun w => .lhu (rdOf w) (rs1Of w) (fieldI w)⟩,
   ⟨opStore, some 0b000#3, none, none, fun w => .sb (rs1Of w) (rs2Of w) (fieldS w)⟩,
   ⟨opStore, some 0b001#3, none, none, fun w => .sh (rs1Of w) (rs2Of w) (fieldS w)⟩,
   ⟨opStore, some 0b010#3, none, none, fun w => .sw (rs1Of w) (rs2Of w) (fieldS w)⟩]

/-- Rows ADDI to ANDI; the three shifts compare `inst[31:25]` and read `shamt = inst[24:20]` (R109). -/
def rowsOpImm : List DecodeRow :=
  [⟨opOpImm, some 0b000#3, none, none, fun w => .addi (rdOf w) (rs1Of w) (fieldI w)⟩,
   ⟨opOpImm, some 0b001#3, some 0b0000000#7, none, fun w => .slli (rdOf w) (rs1Of w) (rs2Of w)⟩,
   ⟨opOpImm, some 0b010#3, none, none, fun w => .slti (rdOf w) (rs1Of w) (fieldI w)⟩,
   ⟨opOpImm, some 0b011#3, none, none, fun w => .sltiu (rdOf w) (rs1Of w) (fieldI w)⟩,
   ⟨opOpImm, some 0b100#3, none, none, fun w => .xori (rdOf w) (rs1Of w) (fieldI w)⟩,
   ⟨opOpImm, some 0b101#3, some 0b0000000#7, none, fun w => .srli (rdOf w) (rs1Of w) (rs2Of w)⟩,
   ⟨opOpImm, some 0b101#3, some 0b0100000#7, none, fun w => .srai (rdOf w) (rs1Of w) (rs2Of w)⟩,
   ⟨opOpImm, some 0b110#3, none, none, fun w => .ori (rdOf w) (rs1Of w) (fieldI w)⟩,
   ⟨opOpImm, some 0b111#3, none, none, fun w => .andi (rdOf w) (rs1Of w) (fieldI w)⟩]

/-- Rows ADD to AND. -/
def rowsOp : List DecodeRow :=
  [⟨opOp, some 0b000#3, some 0b0000000#7, none, fun w => .add (rdOf w) (rs1Of w) (rs2Of w)⟩,
   ⟨opOp, some 0b000#3, some 0b0100000#7, none, fun w => .sub (rdOf w) (rs1Of w) (rs2Of w)⟩,
   ⟨opOp, some 0b001#3, some 0b0000000#7, none, fun w => .sll (rdOf w) (rs1Of w) (rs2Of w)⟩,
   ⟨opOp, some 0b010#3, some 0b0000000#7, none, fun w => .slt (rdOf w) (rs1Of w) (rs2Of w)⟩,
   ⟨opOp, some 0b011#3, some 0b0000000#7, none, fun w => .sltu (rdOf w) (rs1Of w) (rs2Of w)⟩,
   ⟨opOp, some 0b100#3, some 0b0000000#7, none, fun w => .xor (rdOf w) (rs1Of w) (rs2Of w)⟩,
   ⟨opOp, some 0b101#3, some 0b0000000#7, none, fun w => .srl (rdOf w) (rs1Of w) (rs2Of w)⟩,
   ⟨opOp, some 0b101#3, some 0b0100000#7, none, fun w => .sra (rdOf w) (rs1Of w) (rs2Of w)⟩,
   ⟨opOp, some 0b110#3, some 0b0000000#7, none, fun w => .or (rdOf w) (rs1Of w) (rs2Of w)⟩,
   ⟨opOp, some 0b111#3, some 0b0000000#7, none, fun w => .and (rdOf w) (rs1Of w) (rs2Of w)⟩]

/-- The row MRET: funct7 and rs2 name `inst[31:25]` and `inst[24:20]`; rd and rs1 are not compared (R113). -/
def rowsSystem : List DecodeRow :=
  [⟨opSystem, some 0b000#3, some 0b0011000#7, some 0b00010#5, fun _ => .mret⟩]

/-- The decode table, whole: 38 rows in the spec's order (R112). -/
def decodeTable : List DecodeRow :=
  rowsUpperJump ++ rowsBranch ++ rowsMemory ++ rowsOpImm ++ rowsOp ++ rowsSystem

/-- Why bytes are no instruction. -/
inductive DecodeError where
  /-- The word matches no row of the decode table: undecodable (R120). -/
  | noRow (inst : Word)
  /-- Fewer than four bytes: an instruction is one 32-bit word (R100). -/
  | tooShort
deriving DecidableEq, Repr

/-- The instruction a word is, or why it is none (R111, R120). -/
def decode (w : Word) : Except DecodeError Instr :=
  match decodeTable.find? (fun r => r.isMatch w) with
  | some r => .ok (r.build w)
  | none => .error (.noRow w)

/-- Four bytes, the first at the lowest address, as a word: little-endian (20_memory.md R65). -/
def wordOfBytes (b0 b1 b2 b3 : Byte) : Word := b3 ++ b2 ++ b1 ++ b0

/-- Byte `i` of a word in little-endian order (20_memory.md R64). -/
def byteOfWord (w : Word) (i : Nat) : Byte := w.extractLsb' (8 * i) 8

/-- The instruction at the head of a byte sequence and the bytes after it; total on any bytes (R100). -/
def decodeBytes : List Byte → Except DecodeError (Instr × List Byte)
  | b0 :: b1 :: b2 :: b3 :: rest =>
    match decode (wordOfBytes b0 b1 b2 b3) with
    | .ok i => .ok (i, rest)
    | .error e => .error e
  | _ => .error .tooShort

/-- The four bytes of a word as the machine stores them (20_memory.md R65). -/
def bytesOfWord (w : Word) : List Byte := [byteOfWord w 0, byteOfWord w 1, byteOfWord w 2, byteOfWord w 3]

/-- The instruction word of a table row given as a number of `nbits` bits, the bits above them zero. -/
def tableWord (nbits w : Nat) : Word := BitVec.ofNat 32 (w % 2 ^ nbits)

/-- The host's question: what the decoder reads from the instruction whose bits are `w`. -/
def decodeTableWord (nbits w : Nat) : Option Instr :=
  match decodeBytes (bytesOfWord (tableWord nbits w)) with
  | .ok (i, _) => some i
  | .error _ => none

/-! ### Encoding (30_encoding.md R101, R112) -/

/-- Format R. -/
def encR (f7 : BitVec 7) (rs2 rs1 : RegIdx) (f3 : BitVec 3) (rd : RegIdx) (op : BitVec 7) : Word :=
  f7 ++ rs2 ++ rs1 ++ f3 ++ rd ++ op

/-- Format I. -/
def encI (imm : BitVec 12) (rs1 : RegIdx) (f3 : BitVec 3) (rd : RegIdx) (op : BitVec 7) : Word :=
  imm ++ rs1 ++ f3 ++ rd ++ op

/-- Format S. -/
def encS (imm : BitVec 12) (rs2 rs1 : RegIdx) (f3 : BitVec 3) (op : BitVec 7) : Word :=
  imm.extractLsb' 5 7 ++ rs2 ++ rs1 ++ f3 ++ imm.extractLsb' 0 5 ++ op

/-- Format B: bits 31:25 hold `imm[12,10:5]`, bits 11:7 hold `imm[4:1,11]`. -/
def encB (off : BitVec 13) (rs2 rs1 : RegIdx) (f3 : BitVec 3) (op : BitVec 7) : Word :=
  off.extractLsb' 12 1 ++ off.extractLsb' 5 6 ++ rs2 ++ rs1 ++ f3 ++ off.extractLsb' 1 4
    ++ off.extractLsb' 11 1 ++ op

/-- Format U. -/
def encU (imm : BitVec 20) (rd : RegIdx) (op : BitVec 7) : Word := imm ++ rd ++ op

/-- Format J: bits 31:25 hold `imm[20,10:5]`, bits 24:20 hold `imm[4:1,11]`, bits 19:12 hold `imm[19:12]`. -/
def encJ (off : BitVec 21) (rd : RegIdx) (op : BitVec 7) : Word :=
  off.extractLsb' 20 1 ++ off.extractLsb' 1 10 ++ off.extractLsb' 11 1 ++ off.extractLsb' 12 8 ++ rd ++ op

/-- The word of an instruction. MRET has 1024 words; this is 30200073, the one with `rd` and `rs1` zero
(30_encoding.md R113; PRESUMED from the family that assemblers emit it, log 13). -/
def encode : Instr → Word
  | .lui rd imm => encU imm rd opLui
  | .auipc rd imm => encU imm rd opAuipc
  | .jal rd off => encJ off rd opJal
  | .jalr rd rs1 imm => encI imm rs1 0b000#3 rd opJalr
  | .beq rs1 rs2 off => encB off rs2 rs1 0b000#3 opBranch
  | .bne rs1 rs2 off => encB off rs2 rs1 0b001#3 opBranch
  | .blt rs1 rs2 off => encB off rs2 rs1 0b100#3 opBranch
  | .bge rs1 rs2 off => encB off rs2 rs1 0b101#3 opBranch
  | .bltu rs1 rs2 off => encB off rs2 rs1 0b110#3 opBranch
  | .bgeu rs1 rs2 off => encB off rs2 rs1 0b111#3 opBranch
  | .lb rd rs1 imm => encI imm rs1 0b000#3 rd opLoad
  | .lh rd rs1 imm => encI imm rs1 0b001#3 rd opLoad
  | .lw rd rs1 imm => encI imm rs1 0b010#3 rd opLoad
  | .lbu rd rs1 imm => encI imm rs1 0b100#3 rd opLoad
  | .lhu rd rs1 imm => encI imm rs1 0b101#3 rd opLoad
  | .sb rs1 rs2 imm => encS imm rs2 rs1 0b000#3 opStore
  | .sh rs1 rs2 imm => encS imm rs2 rs1 0b001#3 opStore
  | .sw rs1 rs2 imm => encS imm rs2 rs1 0b010#3 opStore
  | .addi rd rs1 imm => encI imm rs1 0b000#3 rd opOpImm
  | .slli rd rs1 shamt => encR 0b0000000#7 shamt rs1 0b001#3 rd opOpImm
  | .slti rd rs1 imm => encI imm rs1 0b010#3 rd opOpImm
  | .sltiu rd rs1 imm => encI imm rs1 0b011#3 rd opOpImm
  | .xori rd rs1 imm => encI imm rs1 0b100#3 rd opOpImm
  | .srli rd rs1 shamt => encR 0b0000000#7 shamt rs1 0b101#3 rd opOpImm
  | .srai rd rs1 shamt => encR 0b0100000#7 shamt rs1 0b101#3 rd opOpImm
  | .ori rd rs1 imm => encI imm rs1 0b110#3 rd opOpImm
  | .andi rd rs1 imm => encI imm rs1 0b111#3 rd opOpImm
  | .add rd rs1 rs2 => encR 0b0000000#7 rs2 rs1 0b000#3 rd opOp
  | .sub rd rs1 rs2 => encR 0b0100000#7 rs2 rs1 0b000#3 rd opOp
  | .sll rd rs1 rs2 => encR 0b0000000#7 rs2 rs1 0b001#3 rd opOp
  | .slt rd rs1 rs2 => encR 0b0000000#7 rs2 rs1 0b010#3 rd opOp
  | .sltu rd rs1 rs2 => encR 0b0000000#7 rs2 rs1 0b011#3 rd opOp
  | .xor rd rs1 rs2 => encR 0b0000000#7 rs2 rs1 0b100#3 rd opOp
  | .srl rd rs1 rs2 => encR 0b0000000#7 rs2 rs1 0b101#3 rd opOp
  | .sra rd rs1 rs2 => encR 0b0100000#7 rs2 rs1 0b101#3 rd opOp
  | .or rd rs1 rs2 => encR 0b0000000#7 rs2 rs1 0b110#3 rd opOp
  | .and rd rs1 rs2 => encR 0b0000000#7 rs2 rs1 0b111#3 rd opOp
  | .mret => encR 0b0011000#7 0b00010#5 0b00000#5 0b000#3 0b00000#5 opSystem

end Sys2Proof
end

