-- ==== Sys2Proof/Config.lean ====
section
/-! DEFINITION. What an implementation fixes (the addresses and sizes of the system, the interrupt policy)
and the free values the spec leaves open. An opaque constant has no body: nothing can be proved of its value,
so a claim holds whatever it is. -/

namespace Sys2Proof

/-- When a request is honoured: the two values of the spec's open parameter `IRQ_POLICY`
(60_exceptions.md R241, 92_eei_decisions.md D13). -/
inductive IrqPolicy where
  /-- At every eligible boundary but the one right after an MRET that cleared `in_irq`. -/
  | immediate
  /-- At some eligible boundary, the one after MRET included; a request that stays up is taken eventually. -/
  | anyBoundary
deriving DecidableEq, Repr, Inhabited

/-- `IRQ_POLICY` of this implementation: left OPEN by the spec (D13), so opaque here. DESIGN CHOICE, log 5. -/
opaque Config.irqPolicy : IrqPolicy

/-- Under `anyBoundary`: how many eligible boundaries the core lets pass in the n-th spell of waiting before
it takes the interrupt. Free; that it is a number is weak fairness (60_exceptions.md R241).
DESIGN CHOICE, log 5. -/
opaque Config.irqLatency : Nat → Nat

/-- The byte the n-th load from the write-only register C0000000 returns: any 8-bit value, a fresh one at
each load (60_exceptions.md R258). DESIGN CHOICE (the form of the free value), log 6. -/
opaque Config.textOutRead : Nat → Byte

/-- Bits 5 to 0 of a load from the text input's `ctrl` after n stores and host actions: any value
(60_exceptions.md R253), the same between two loads with no store or host action between (20_memory.md R73).
DESIGN CHOICE (the form of the free value), log 7. -/
opaque Config.ctrlSpare : Nat → BitVec 6

/-- First address after RAM and bitmap RAM together: 4096 bytes from 0 (20_memory.md R60, R61). -/
def Config.memSize : Nat := 0x1000

/-- First address of the bitmap RAM (20_memory.md R60). -/
def Config.bitmapBase : Nat := 0xC00

/-- Text input control/status register `ctrl` (60_exceptions.md R250). -/
def Config.ctrlAddr : Word := 0xB0000000#32

/-- Text input data register (60_exceptions.md R250). -/
def Config.dataAddr : Word := 0xB0000001#32

/-- Text output data register (60_exceptions.md R257). -/
def Config.textOutAddr : Word := 0xC0000000#32

/-- GPIO direction register (60_exceptions.md R260). -/
def Config.dirAddr : Word := 0xD0000000#32

/-- GPIO interrupt enable register (60_exceptions.md R260). -/
def Config.ienAddr : Word := 0xD0000004#32

/-- GPIO rising-edge events register (60_exceptions.md R260). -/
def Config.revAddr : Word := 0xD0000008#32

/-- GPIO falling-edge events register (60_exceptions.md R260). -/
def Config.fevAddr : Word := 0xD000000C#32

/-- GPIO value register (60_exceptions.md R260). -/
def Config.valAddr : Word := 0xD0000010#32

/-- Reset entry point (20_memory.md R62, 10_state.md R35). -/
def Config.resetVector : Word := 0#32

/-- Interrupt entry point (20_memory.md R62, 60_exceptions.md R242). -/
def Config.irqVector : Word := 4#32

end Sys2Proof
end

