-- ==== Sys2Proof/Machine/Memory.lean ====
section
/-! DEFINITION. Memory as (address, byte) pairs in one canonical form: addresses strictly rising, no entry equal
to what an unlisted address reads as. It holds RAM and bitmap RAM only (spec/20_memory.md R60, R61); device
registers are fields of State. -/

namespace Sys2Proof.Machine

/-- RAM and bitmap RAM, by address. -/
abbrev Memory := List Host.Cell

/-- What an address the list does not name reads as. It is the form's own choice: a launch gives every byte of RAM and
bitmap RAM a value (`Memory.fill`), so only `State.reset` says that memory holds it. DESIGN CHOICE, log 2. -/
def blankByte : Byte := 0#8

/-- The byte at an address. -/
def Memory.read : Memory → Nat → Byte
  | [], _ => blankByte
  | (k, v) :: m, a => if k = a then v else Memory.read m a

/-- Memory with one byte changed (20_memory.md R71); keeps the canonical form. -/
def Memory.write : Memory → Nat → Byte → Memory
  | [], a, b => if b = blankByte then [] else [(a, b)]
  | (k, v) :: m, a, b =>
    if a < k then (if b = blankByte then (k, v) :: m else (a, b) :: (k, v) :: m)
    else if a = k then (if b = blankByte then m else (a, b) :: m)
    else (k, v) :: Memory.write m a b

/-- Addresses strictly rise from `lo` on and no entry is blank. -/
def Memory.wfFrom : Nat → Memory → Bool
  | _, [] => true
  | lo, (k, v) :: m => decide (lo ≤ k) && v != blankByte && Memory.wfFrom (k + 1) m

/-- The canonical form holds. -/
def Memory.wf (m : Memory) : Bool := Memory.wfFrom 0 m

/-- Every listed address is an address of RAM or bitmap RAM (20_memory.md R60). -/
def Memory.inRam (m : Memory) : Bool := m.all fun c => decide (c.1 < Config.memSize)

/-- The `n` bytes from address `a` joined little-endian, zero-extended to a word
(20_memory.md R64, R70: `{mem[addr+n-1], ..., mem[addr]}`). -/
def Memory.readLE (m : Memory) (a : Nat) : Nat → Word
  | 0 => 0#32
  | n + 1 => (m.read a).setWidth 32 ||| (Memory.readLE m (a + 1) n <<< 8)

/-- `mem[a + i] <- v[8i+7 : 8i]` for `i` from 0 to `n - 1` (20_memory.md R71). -/
def Memory.writeLE (m : Memory) (a : Nat) : Nat → Word → Memory
  | 0, _ => m
  | n + 1, v => Memory.writeLE (m.write a (v.setWidth 8)) (a + 1) n (v >>> 8)

/-- Memory that holds the given bytes from address `a` on, in its canonical form. -/
def Memory.fill : Nat → List Byte → Memory
  | _, [] => []
  | a, b :: bs => if b = blankByte then Memory.fill (a + 1) bs else (a, b) :: Memory.fill (a + 1) bs

/-- An image loaded before a run: its bytes are written, in their order, to the addresses it names in RAM and bitmap RAM
(60_exceptions.md R270). Bytes it names elsewhere are dropped: what the loader does with them is not in the
spec (91_not_in_source.md N28). DESIGN CHOICE, log 3. -/
def Memory.load (m : Memory) (image : List Host.Cell) : Memory :=
  image.foldl (fun m c => if c.1 < Config.memSize then m.write c.1 c.2 else m) m

end Sys2Proof.Machine
end

