-- ==== Sys2Proof/Machine/State.lean ====
section
/-! DEFINITION. The state of the system (spec/10_state.md R30), what stops a step, and reset
(spec/70_reset_and_hazards.md R290). -/

namespace Sys2Proof.Machine

/-- The size of a memory access (20_memory.md R66). -/
inductive AccessSize where
  | byte
  | half
  | word
deriving DecidableEq, Repr

/-- The number of bytes an access touches: 1, 2 or 4 (20_memory.md R66). -/
def AccessSize.bytes : AccessSize → Nat
  | .byte => 1
  | .half => 2
  | .word => 4

/-- What an access is for (60_exceptions.md R232). -/
inductive AccessKind where
  | fetch
  | load
  | store
deriving DecidableEq, Repr

/-- The five regions of the address map (20_memory.md R60). -/
inductive Region where
  | ram
  | bitmapRam
  | textInput
  | textOutput
  | gpio
deriving DecidableEq, Repr

/-- What the host can do during a run (60_exceptions.md R270). -/
inductive HostAction where
  /-- Type a character with this code in the text input (R251). -/
  | typeChar (c : Byte)
  /-- Bring a GPIO pin to this level (R261). -/
  | setPin (pin : Fin 32) (level : Bool)
deriving DecidableEq, Repr

/-- The model faults, all of them (60_exceptions.md R232): the machine stops and nothing has changed (R231). Each is
SAFE: the real core does something in each case, and nothing can be proved of it here. -/
inductive Fault where
  /-- Raised by a fetch, load or store that starts outside the five regions (20_memory.md R63). Safe. -/
  | unmappedAccess (addr : Word) (size : AccessSize) (kind : AccessKind)
  /-- Raised by an access to a device with a width or kind that is not admitted (20_memory.md R68). Safe. -/
  | unsupportedDeviceAccess (addr : Word) (size : AccessSize) (kind : AccessKind)
  /-- Raised by a half-word access at an odd address or a word access at an address that is no multiple of 4
  (20_memory.md R67). Safe. -/
  | misalignedAccess (addr : Word) (size : AccessSize)
  /-- Raised by the step when the fetched word matches no row of the decode table (30_encoding.md R120). Safe. -/
  | illegalInstruction (inst pc : Word)
  /-- Raised by an instruction whose next address is no multiple of 4 (10_state.md R36). Safe. -/
  | misalignedTarget (target pc : Word)
deriving DecidableEq, Repr

/-- Refusals: none is raised by any instruction of this model. -/
inductive Refusal where
  /-- Raised by exec for an instruction that has no meaning yet (none is left). Safe. -/
  | notModelled (mnemonic : String)
deriving DecidableEq, Repr

/-- The state of the system (10_state.md R30), and five fields of the model's own at its end. -/
structure State where
  /-- x[0] to x[31], 32 bits each (10_state.md R31); read and written through `State.x` and `State.setX` only,
  where x[0] is hard-wired (R32). -/
  regs : Vector Word 32
  /-- The address of the current instruction (10_state.md R34). -/
  pc : Word
  /-- The return address of the interrupt (10_state.md R38). -/
  mepc : Word
  /-- 1 from interrupt entry to the MRET that ends the handler (10_state.md R41). -/
  inIrq : Bool
  /-- RAM and bitmap RAM (10_state.md R45, 20_memory.md R61). -/
  mem : Memory
  /-- Text input control/status: bit 7 interrupt enable, bit 6 character received (60_exceptions.md R250). -/
  ctrl : Byte
  /-- Text input data: the last input character (60_exceptions.md R250). -/
  data : Byte
  /-- The bytes stored to the text output since reset, in order (10_state.md R47). -/
  textOut : List Byte
  /-- GPIO direction: 0 output, 1 input (60_exceptions.md R260). -/
  dir : Word
  /-- GPIO interrupt enable (60_exceptions.md R260). -/
  ien : Word
  /-- GPIO rising-edge events (60_exceptions.md R260). -/
  rev : Word
  /-- GPIO falling-edge events (60_exceptions.md R260). -/
  fev : Word
  /-- GPIO value (60_exceptions.md R260). -/
  val : Word
  /-- MODEL: loads from the write-only text output so far; selects the next free byte (R258). Log 6. -/
  textReads : Nat
  /-- MODEL: stores and host actions so far; selects the free bits of a load from `ctrl` (R253). Log 7. -/
  changes : Nat
  /-- MODEL: eligible boundaries let pass in the present spell of waiting (R241). Log 5. -/
  waited : Nat
  /-- MODEL: spells of waiting that have ended; selects the free latency of the present one (R241). Log 5. -/
  episode : Nat
  /-- MODEL: what the host will do at the coming boundaries, one list each (10_state.md R53). Log 4. -/
  inputs : List (List HostAction)
deriving DecidableEq, Repr

/-- The inputs of a launch: everything reset leaves unspecified (10_state.md R33, R39, R45, R46, R48, R53), with
the start values of the model's own counters. -/
structure Launch where
  /-- x[1] to x[31]; entry 0 is not used (R32, R33). -/
  regs : Vector Word 32
  /-- R39. -/
  mepc : Word
  /-- What RAM and bitmap RAM hold where the image has no byte: one input for each of their 4096 bytes (R45). -/
  ram : Vector Byte 0x1000
  /-- The loaded image (R45). -/
  image : List Host.Cell
  /-- Bits 5 to 0 of `ctrl`, which nothing reads (R46, 60_exceptions.md R253). -/
  ctrlSpare : BitVec 6
  /-- R46. -/
  data : Byte
  /-- The host's pin levels (R48). -/
  val : Word
  /-- MODEL. -/
  textReads : Nat
  /-- MODEL. -/
  changes : Nat
  /-- MODEL. -/
  episode : Nat
  /-- What the host will do (R53). -/
  inputs : List (List HostAction)
deriving DecidableEq, Repr

/-- The state right after reset for given launch inputs (70_reset_and_hazards.md R290): every value the spec gives,
and the inputs where it gives none. -/
def State.launch (l : Launch) : State where
  regs := l.regs.set 0 0#32
  pc := Config.resetVector
  mepc := l.mepc
  inIrq := false
  mem := (Memory.fill 0 l.ram.toList).load l.image
  ctrl := 0#2 ++ l.ctrlSpare
  data := l.data
  textOut := []
  dir := 0xFFFFFFFF#32
  ien := 0#32
  rev := 0#32
  fev := 0#32
  val := l.val
  textReads := l.textReads
  changes := l.changes
  waited := 0
  episode := l.episode
  inputs := l.inputs

/-- The launch the model names: zero everywhere, nothing loaded, a host that does nothing.
DESIGN CHOICE, unsafe, log 1, log 2, log 4. -/
def Launch.named : Launch where
  regs := Vector.replicate 32 0#32
  mepc := 0#32
  ram := Vector.replicate 0x1000 blankByte
  image := []
  ctrlSpare := 0#6
  data := 0#8
  val := 0#32
  textReads := 0
  changes := 0
  episode := 0
  inputs := []

/-- The machine right after reset (70_reset_and_hazards.md R290) with the model's named launch inputs: `State.launch
Launch.named`, by `State.reset_eq_launch`. Its memory, all blank, is written as the empty list so that it need not be
computed. -/
def State.reset : State := { State.launch Launch.named with mem := [] }

end Sys2Proof.Machine
end

