-- ==== Sys2Proof/Machine/Operands.lean ====
section
/-! DEFINITION. Operand forms: registers, immediates, shift amounts, effective addresses
(spec/10_state.md R31, R32; spec/30_encoding.md R104 to R109; spec/43_loads.md R170; spec/44_stores.md R180). -/

namespace Sys2Proof.Machine

/-- Read of general register `r`; x[0] reads as 0 always (10_state.md R32). -/
def State.x (s : State) (r : RegIdx) : Word :=
  if r = 0#5 then 0#32 else s.regs[r.toNat]'r.isLt

/-- Write of general register `r`; a write to x[0] is discarded (10_state.md R32). -/
def State.setX (s : State) (r : RegIdx) (v : Word) : State :=
  if r = 0#5 then s else { s with regs := s.regs.set r.toNat v r.isLt }

/-- `sext_N` for N = 8, 12, 13, 16, 21 (00_scope.md R10). -/
def sext {n : Nat} (v : BitVec n) : Word := v.signExtend 32

/-- `zext_N` for N = 8, 16 (00_scope.md R10). -/
def zext {n : Nat} (v : BitVec n) : Word := v.setWidth 32

/-- `imm_I` of the format's field (30_encoding.md R104). -/
def immI (imm : BitVec 12) : Word := sext imm

/-- `imm_S` of the format's field (30_encoding.md R105). -/
def immS (imm : BitVec 12) : Word := sext imm

/-- `imm_B` of the byte offset (30_encoding.md R106). -/
def immB (off : BitVec 13) : Word := sext off

/-- `imm_U`: the field above 12 zero bits (30_encoding.md R107). -/
def immU (imm : BitVec 20) : Word := imm ++ 0#12

/-- `imm_J` of the byte offset (30_encoding.md R108). -/
def immJ (off : BitVec 21) : Word := sext off

/-- A register shift amount: the low five bits of the register (46_op.md R205 (e)). -/
def shiftAmount (v : Word) : BitVec 5 := v.extractLsb' 0 5

/-- `a << n`: zeros enter at bit 0 (46_op.md R205 (b)). -/
def shiftLeft (a : Word) (n : BitVec 5) : Word := a <<< n.toNat

/-- `a >>u n`: zeros enter at bit 31 (46_op.md R205 (c)). -/
def shiftRightLogical (a : Word) (n : BitVec 5) : Word := a >>> n.toNat

/-- `a >>s n`: copies of bit 31 enter at bit 31 (46_op.md R205 (d)). -/
def shiftRightArith (a : Word) (n : BitVec 5) : Word := a.sshiftRight n.toNat

/-- The address of a load, `x[rs1] + imm_I` modulo 2^32 (43_loads.md R170). -/
def State.loadAddr (s : State) (rs1 : RegIdx) (imm : BitVec 12) : Word := s.x rs1 + immI imm

/-- The address of a store, `x[rs1] + imm_S` modulo 2^32 (44_stores.md R180). -/
def State.storeAddr (s : State) (rs1 : RegIdx) (imm : BitVec 12) : Word := s.x rs1 + immS imm

end Sys2Proof.Machine
end

