-- ==== Sys2Proof/Machine/Devices.lean ====
section
/-! DEFINITION. The device registers, the request line and the host's actions on the devices
(spec/60_exceptions.md R246 to R271). -/

namespace Sys2Proof.Machine

/-! ### Text input (R250 to R256) -/

/-- A byte with bits 7 and 6 of `hi` and bits 5 to 0 of `lo`. -/
def joinCtrl (hi : Byte) (lo : BitVec 6) : Byte := hi.extractLsb' 6 2 ++ lo

/-- Load of one byte from `ctrl`: bits 7 and 6 as they stand, bits 5 to 0 any value (R253). -/
def State.loadCtrl (s : State) : Byte := joinCtrl s.ctrl (Config.ctrlSpare s.changes)

/-- Store of one byte to `ctrl`: bits 7 and 6 are written, bits 5 to 0 are ignored (R254). -/
def State.storeCtrl (s : State) (v : Byte) : State :=
  { s with ctrl := joinCtrl v (s.ctrl.extractLsb' 0 6) }

/-- Load of one byte from the text input (R253, R255). -/
def State.loadTextInput (s : State) (a : Word) : Byte :=
  if a = Config.ctrlAddr then s.loadCtrl else s.data

/-! ### Text output (R257, R258) -/

/-- Store of one byte: appends it to the text output stream (R257). -/
def State.storeTextOut (s : State) (v : Byte) : State := { s with textOut := s.textOut ++ [v] }

/-- Load of one byte from the write-only register: any value, a fresh one at each load (R258). -/
def State.loadTextOut (s : State) : Byte := Config.textOutRead s.textReads

/-! ### GPIO (R260 to R265) -/

/-- Load of a word from a GPIO register (R263). -/
def State.loadGpio (s : State) (a : Word) : Word :=
  if a = Config.dirAddr then s.dir
  else if a = Config.ienAddr then s.ien
  else if a = Config.revAddr then s.rev
  else if a = Config.fevAddr then s.fev
  else s.val

/-- What a store of `v` to `val` leaves there: output pins (`dir` bit 0) take `v`, input pins keep their level (R264). -/
def gpioVal (dir val v : Word) : Word := (val &&& dir) ||| (v &&& ~~~dir)

/-- Store of a word to a GPIO register: the whole register is replaced, but for `val` (R264). -/
def State.storeGpio (s : State) (a : Word) (v : Word) : State :=
  if a = Config.dirAddr then { s with dir := v }
  else if a = Config.ienAddr then { s with ien := v }
  else if a = Config.revAddr then { s with rev := v }
  else if a = Config.fevAddr then { s with fev := v }
  else { s with val := gpioVal s.dir s.val v }

/-! ### The request line (R246) -/

/-- `irq_text = ctrl[7] AND ctrl[6]`. -/
def State.irqText (s : State) : Bool := s.ctrl.getLsbD 7 && s.ctrl.getLsbD 6

/-- `irq_gpio = (ien AND (rev OR fev)) != 00000000`. -/
def State.irqGpio (s : State) : Bool := (s.ien &&& (s.rev ||| s.fev)) != 0#32

/-- `irq_request = irq_text OR irq_gpio`: a level, not a latched pulse. -/
def State.irqRequest (s : State) : Bool := s.irqText || s.irqGpio

/-! ### The host (R251, R261, R270) -/

/-- The word with only bit `pin` set. -/
def pinMask (pin : Fin 32) : Word := 1#32 <<< pin.val

/-- The word with one bit set or cleared. -/
def setBit (w : Word) (pin : Fin 32) (level : Bool) : Word :=
  if level then w ||| pinMask pin else w &&& ~~~pinMask pin

/-- "Character typed": `data <- c`, `ctrl[6] <- 1` (R251). -/
def State.typeChar (s : State) (c : Byte) : State := { s with data := c, ctrl := s.ctrl ||| 0x40#8 }

/-- "Pin changes level": on an input pin whose level differs, the level and the edge's event bit are set; otherwise
nothing happens (R261). -/
def State.setPin (s : State) (pin : Fin 32) (level : Bool) : State :=
  if s.dir.getLsbD pin.val && s.val.getLsbD pin.val != level then
    { s with
      val := setBit s.val pin level
      rev := if level then s.rev ||| pinMask pin else s.rev
      fev := if level then s.fev else s.fev ||| pinMask pin }
  else s

/-- One action of the host; `changes` counts it (R270). -/
def State.hostAct (s : State) : HostAction → State
  | .typeChar c => { s.typeChar c with changes := s.changes + 1 }
  | .setPin pin level => { s.setPin pin level with changes := s.changes + 1 }

/-- The host's actions in order. -/
def State.hostActs (s : State) : List HostAction → State
  | [] => s
  | a :: as => State.hostActs (s.hostAct a) as

/-- What the host does before the next step: the head of `inputs`, if there is one. DESIGN CHOICE (the form), log 4. -/
def State.hostTurn (s : State) : State :=
  match s.inputs with
  | [] => s
  | acts :: later => State.hostActs { s with inputs := later } acts

/-! ### What an observer sees (R266 to R268, R271) -/

/-- The address of the pixel at column `x`, row `y` (R268). -/
def pixelAddr (x y : Fin 32) : Nat := Config.bitmapBase + 32 * y.val + x.val

/-- The byte of a pixel. -/
def State.pixel (s : State) (x y : Fin 32) : Byte := s.mem.read (pixelAddr x y)

/-- Red, green and blue of a pixel byte: bits 7:5, 4:2, 1:0 (R267). PRESUMED, log 11; no rule depends on it. -/
def pixelColour (b : Byte) : BitVec 3 × BitVec 3 × BitVec 2 :=
  (b.extractLsb' 5 3, b.extractLsb' 2 3, b.extractLsb' 0 2)

/-- The output bits of `val` (R271). -/
def State.outputPins (s : State) : Word := s.val &&& ~~~s.dir

end Sys2Proof.Machine
end

