-- ==== Sys2Proof/Machine/Flags.lean ====
section
/-! DEFINITION. The hardware has no flags (spec/10_state.md R51): a comparison puts 0 or 1 in a register or is used at
once by a branch. These are the comparisons (spec/00_scope.md R9, R10; spec/46_op.md R205 (f)). -/

namespace Sys2Proof.Machine

/-- `a <s b`: as two's-complement integers (00_scope.md R9). -/
def ltSigned (a b : Word) : Bool := decide (a.toInt < b.toInt)

/-- `a <u b`: as integers 0 to 2^32 - 1 (00_scope.md R9). -/
def ltUnsigned (a b : Word) : Bool := decide (a.toNat < b.toNat)

/-- The result of a comparison in a register: exactly 00000001 or 00000000 (46_op.md R205 (f)). -/
def truthWord (c : Bool) : Word := if c then 1#32 else 0#32

end Sys2Proof.Machine
end

