-- ==== Sys2Proof/Machine/Ops.lean ====
section
/-! DEFINITION. The shared operations: the address map, the checks of an access, `MemRead` and `MemWrite`, the check of
the next address, interrupt entry and return, and the shapes the instruction families share. -/

namespace Sys2Proof.Machine

/-- What a meaning answers. -/
abbrev Result := Host.Outcome State Fault Refusal

/-- A result with `f` applied to its next state, if it has one. -/
def mapNext (f : State → State) : Result → Result
  | .next t => .next (f t)
  | .fault r => .fault r
  | .refused r => .refused r

/-! ### The address map and the checks of an access (20_memory.md R60 to R72) -/

/-- The region an address lies in; `none` is unmapped (20_memory.md R60). -/
def regionOf (a : Word) : Option Region :=
  if a.toNat < Config.bitmapBase then some .ram
  else if a.toNat < Config.memSize then some .bitmapRam
  else if a = Config.ctrlAddr ∨ a = Config.dataAddr then some .textInput
  else if a = Config.textOutAddr then some .textOutput
  else if Config.dirAddr.toNat ≤ a.toNat ∧ a.toNat < Config.valAddr.toNat + 4 then some .gpio
  else none

/-- The address is not a multiple of the access size (20_memory.md R66, R67). -/
def isMisaligned (a : Word) (size : AccessSize) : Bool := a.toNat % size.bytes != 0

/-- Which accesses a region admits, for an aligned address in it (20_memory.md R68; fetch: R72). -/
def admits (r : Region) (a : Word) (size : AccessSize) (kind : AccessKind) : Bool :=
  match r, kind, size with
  | .ram, .fetch, .word => true
  | .ram, .fetch, _ => false
  | .ram, _, _ => true
  | .bitmapRam, .fetch, .word => true
  | .bitmapRam, .fetch, _ => false
  | .bitmapRam, _, _ => true
  | .textInput, .load, .byte => true
  | .textInput, .store, .byte => a == Config.ctrlAddr
  | .textInput, _, _ => false
  | .textOutput, .load, .byte => true
  | .textOutput, .store, .byte => true
  | .textOutput, _, _ => false
  | .gpio, .load, .word => true
  | .gpio, .store, .word => true
  | .gpio, _, _ => false

/-- The checks of an access, in their order: alignment, map, device width (20_memory.md R70, R71, R72). The map is
asked about the first address: an aligned access that starts in RAM stays in RAM, and one that starts in a device
is judged by R68's table even where it would run past the device. DEDUCED, log 9; for a fetch at a misaligned `pc`,
log 10. -/
def checkAccess (a : Word) (size : AccessSize) (kind : AccessKind) : Except Fault Region :=
  if isMisaligned a size then .error (.misalignedAccess a size)
  else match regionOf a with
    | none => .error (.unmappedAccess a size kind)
    | some r => if admits r a size kind then .ok r else .error (.unsupportedDeviceAccess a size kind)

/-- `MemRead(addr, n)` of a load: the value, zero-extended to a word, and the state after it, which differs only in the
model's count of reads of the write-only register (20_memory.md R70). -/
def State.memRead (s : State) (a : Word) (size : AccessSize) : Except Fault (Word × State) :=
  match checkAccess a size .load with
  | .error f => .error f
  | .ok .ram => .ok (s.mem.readLE a.toNat size.bytes, s)
  | .ok .bitmapRam => .ok (s.mem.readLE a.toNat size.bytes, s)
  | .ok .textInput => .ok (zext (s.loadTextInput a), s)
  | .ok .textOutput => .ok (zext s.loadTextOut, { s with textReads := s.textReads + 1 })
  | .ok .gpio => .ok (s.loadGpio a, s)

/-- The effect of an admitted store on its region (20_memory.md R71). -/
def State.storeTo (s : State) (r : Region) (a : Word) (size : AccessSize) (v : Word) : State :=
  match r with
  | .ram => { s with mem := s.mem.writeLE a.toNat size.bytes v }
  | .bitmapRam => { s with mem := s.mem.writeLE a.toNat size.bytes v }
  | .textInput => s.storeCtrl (v.setWidth 8)
  | .textOutput => s.storeTextOut (v.setWidth 8)
  | .gpio => s.storeGpio a v

/-- `MemWrite(addr, n, v)` with `v` the low `8n` bits of a word (20_memory.md R71); `changes` counts the store. -/
def State.memWrite (s : State) (a : Word) (size : AccessSize) (v : Word) : Except Fault State :=
  match checkAccess a size .store with
  | .error f => .error f
  | .ok r => .ok { s.storeTo r a size v with changes := s.changes + 1 }

/-- Instruction fetch: the little-endian word at `pc`, from RAM or bitmap RAM only (20_memory.md R65, R72). -/
def State.fetch (s : State) : Except Fault Word :=
  match checkAccess s.pc .word .fetch with
  | .error f => .error f
  | .ok _ => .ok (s.mem.readLE s.pc.toNat 4)

/-! ### The next address (10_state.md R36, R37) -/

/-- The two low bits are 00. -/
def isAligned4 (t : Word) : Bool := t.extractLsb' 0 2 == 0#2

/-- Ends an instruction with next address `t`: `pc <- t` if it is a multiple of 4, else `MisalignedTarget(t)` and
nothing is written (10_state.md R36). -/
def State.goTo (s : State) (t : Word) : Result :=
  if isAligned4 t then .next { s with pc := t } else .fault (.misalignedTarget t s.pc)

/-- `pc <- pc + 4`, modulo 2^32 (10_state.md R37). -/
def State.advance (s : State) : Result := s.goTo (s.pc + 4#32)

/-! ### The interrupt (60_exceptions.md R240 to R244) and the return from it (47_system.md R220) -/

/-- Interrupt entry in a state whose `pc` holds the next address `t`: `mepc <- t`, `pc <- 4`, `in_irq <- 1`; nothing
else changes (60_exceptions.md R242, R243). -/
def State.takeInterrupt (s : State) : State :=
  { s with mepc := s.pc, pc := Config.irqVector, inIrq := true }

/-- Return from the handler: `pc <- mepc`, `in_irq <- 0`; `mepc` keeps its value (47_system.md R220, R222). -/
def State.returnFromInterrupt (s : State) : Result := State.goTo { s with inIrq := false } s.mepc

/-- A boundary is eligible: `irq_request = 1 AND in_irq = 0` on the state after the instruction (60_exceptions.md R240). -/
def State.isEligible (s : State) : Bool := s.irqRequest && !s.inIrq

/-- Whether the core takes the interrupt at an eligible boundary (60_exceptions.md R241). `before` and `after` are the
states before and after the instruction; only MRET clears `in_irq`, so `immediate`'s excluded boundary is the one
where it fell. -/
def takesAt (p : IrqPolicy) (before after : State) : Bool :=
  match p with
  | .immediate => !(before.inIrq && !after.inIrq)
  | .anyBoundary => decide (Config.irqLatency after.episode ≤ after.waited)

/-- The spell of waiting has ended: the next one gets a latency of its own. -/
def State.endWait (s : State) : State := { s with waited := 0, episode := s.episode + 1 }

/-- The interrupt test at the boundary after an instruction (60_exceptions.md R240, R241). -/
def boundary (p : IrqPolicy) (before after : State) : State :=
  if after.isEligible then
    if takesAt p before after then after.takeInterrupt.endWait
    else { after with waited := after.waited + 1 }
  else if after.waited = 0 then after else after.endWait

/-! ### Shapes the families share -/

/-- `x[rd] <- v; pc <- pc + 4`. -/
def State.writeBack (s : State) (rd : RegIdx) (v : Word) : Result := (s.setX rd v).advance

/-- `x[rd] <- pc + 4; pc <- t`, both from the state before (41_jumps.md R150, R151; 90_conflicts.md C5). -/
def State.linkAndGo (s : State) (rd : RegIdx) (t : Word) : Result := (s.setX rd (s.pc + 4#32)).goTo t

/-- The common part of the branches: to `pc + imm_B` if `c`, else to `pc + 4` (42_branches.md R160). -/
def State.branchIf (s : State) (c : Bool) (off : BitVec 13) : Result :=
  if c then s.goTo (s.pc + immB off) else s.advance

/-- The common part of the loads: `MemRead`, widen, write `x[rd]`, advance (43_loads.md R170). -/
def State.loadInto (s : State) (rd : RegIdx) (a : Word) (size : AccessSize) (widen : Word → Word) : Result :=
  match s.memRead a size with
  | .error f => .fault f
  | .ok (v, s') => s'.writeBack rd (widen v)

/-- The common part of the stores: `MemWrite`, advance (44_stores.md R180). -/
def State.storeFrom (s : State) (rs2 : RegIdx) (a : Word) (size : AccessSize) : Result :=
  match s.memWrite a size (s.x rs2) with
  | .error f => .fault f
  | .ok s' => s'.advance

end Sys2Proof.Machine
end

