-- ==== Sys2Proof/Machine/Branches.lean ====
section
/-! DEFINITION. The six conditional branches (spec/42_branches.md R160 to R166). -/

namespace Sys2Proof.Machine

/-- Taken when `x[rs1] = x[rs2]` (R161). -/
def execBeq (rs1 rs2 : RegIdx) (off : BitVec 13) (s : State) : Result :=
  s.branchIf (s.x rs1 == s.x rs2) off

/-- Taken when `x[rs1] != x[rs2]` (R162). -/
def execBne (rs1 rs2 : RegIdx) (off : BitVec 13) (s : State) : Result :=
  s.branchIf (s.x rs1 != s.x rs2) off

/-- Taken when `x[rs1] <s x[rs2]` (R163). -/
def execBlt (rs1 rs2 : RegIdx) (off : BitVec 13) (s : State) : Result :=
  s.branchIf (ltSigned (s.x rs1) (s.x rs2)) off

/-- Taken when not (`x[rs1] <s x[rs2]`) (R164). -/
def execBge (rs1 rs2 : RegIdx) (off : BitVec 13) (s : State) : Result :=
  s.branchIf (!ltSigned (s.x rs1) (s.x rs2)) off

/-- Taken when `x[rs1] <u x[rs2]` (R165). -/
def execBltu (rs1 rs2 : RegIdx) (off : BitVec 13) (s : State) : Result :=
  s.branchIf (ltUnsigned (s.x rs1) (s.x rs2)) off

/-- Taken when not (`x[rs1] <u x[rs2]`) (R166). -/
def execBgeu (rs1 rs2 : RegIdx) (off : BitVec 13) (s : State) : Result :=
  s.branchIf (!ltUnsigned (s.x rs1) (s.x rs2)) off

end Sys2Proof.Machine
end

