-- ==== Sys2Proof/Machine/Jumps.lean ====
section
/-! DEFINITION. JAL and JALR (spec/41_jumps.md). -/

namespace Sys2Proof.Machine

/-- `x[rd] <- pc + 4; pc <- pc + imm_J` (R150). -/
def execJal (rd : RegIdx) (off : BitVec 21) (s : State) : Result := s.linkAndGo rd (s.pc + immJ off)

/-- `x[rd] <- pc + 4; pc <- x[rs1] + imm_I`, no bit of the target cleared (R151). -/
def execJalr (rd rs1 : RegIdx) (imm : BitVec 12) (s : State) : Result := s.linkAndGo rd (s.x rs1 + immI imm)

end Sys2Proof.Machine
end

