-- ==== Sys2Proof/Machine/Loads.lean ====
section
/-! DEFINITION. The five loads (spec/43_loads.md R170 to R175). -/

namespace Sys2Proof.Machine

/-- `x[rd] <- sext_8(MemRead(ea, 1))` (R171). -/
def execLb (rd rs1 : RegIdx) (imm : BitVec 12) (s : State) : Result :=
  s.loadInto rd (s.loadAddr rs1 imm) .byte fun v => sext (v.setWidth 8)

/-- `x[rd] <- sext_16(MemRead(ea, 2))` (R172). -/
def execLh (rd rs1 : RegIdx) (imm : BitVec 12) (s : State) : Result :=
  s.loadInto rd (s.loadAddr rs1 imm) .half fun v => sext (v.setWidth 16)

/-- `x[rd] <- MemRead(ea, 4)` (R173). -/
def execLw (rd rs1 : RegIdx) (imm : BitVec 12) (s : State) : Result :=
  s.loadInto rd (s.loadAddr rs1 imm) .word fun v => v

/-- `x[rd] <- zext_8(MemRead(ea, 1))` (R174). -/
def execLbu (rd rs1 : RegIdx) (imm : BitVec 12) (s : State) : Result :=
  s.loadInto rd (s.loadAddr rs1 imm) .byte fun v => zext (v.setWidth 8)

/-- `x[rd] <- zext_16(MemRead(ea, 2))` (R175). -/
def execLhu (rd rs1 : RegIdx) (imm : BitVec 12) (s : State) : Result :=
  s.loadInto rd (s.loadAddr rs1 imm) .half fun v => zext (v.setWidth 16)

end Sys2Proof.Machine
end

