-- ==== Sys2Proof/Machine/OpImm.lean ====
section
/-! DEFINITION. The nine register-immediate instructions (spec/45_op_imm.md R190 to R199). -/

namespace Sys2Proof.Machine

/-- `x[rd] <- x[rs1] + imm_I`, modulo 2^32 (R191). -/
def execAddi (rd rs1 : RegIdx) (imm : BitVec 12) (s : State) : Result :=
  s.writeBack rd (s.x rs1 + immI imm)

/-- `x[rd] <- x[rs1] << shamt` (R192). -/
def execSlli (rd rs1 : RegIdx) (shamt : BitVec 5) (s : State) : Result :=
  s.writeBack rd (shiftLeft (s.x rs1) shamt)

/-- `x[rd] <- (x[rs1] <s imm_I) ? 1 : 0` (R193). -/
def execSlti (rd rs1 : RegIdx) (imm : BitVec 12) (s : State) : Result :=
  s.writeBack rd (truthWord (ltSigned (s.x rs1) (immI imm)))

/-- `x[rd] <- (x[rs1] <u imm_I) ? 1 : 0`, the immediate sign-extended first (R194). -/
def execSltiu (rd rs1 : RegIdx) (imm : BitVec 12) (s : State) : Result :=
  s.writeBack rd (truthWord (ltUnsigned (s.x rs1) (immI imm)))

/-- `x[rd] <- x[rs1] ^ imm_I` (R195). -/
def execXori (rd rs1 : RegIdx) (imm : BitVec 12) (s : State) : Result :=
  s.writeBack rd (s.x rs1 ^^^ immI imm)

/-- `x[rd] <- x[rs1] >>u shamt` (R196). -/
def execSrli (rd rs1 : RegIdx) (shamt : BitVec 5) (s : State) : Result :=
  s.writeBack rd (shiftRightLogical (s.x rs1) shamt)

/-- `x[rd] <- x[rs1] >>s shamt` (R197). -/
def execSrai (rd rs1 : RegIdx) (shamt : BitVec 5) (s : State) : Result :=
  s.writeBack rd (shiftRightArith (s.x rs1) shamt)

/-- `x[rd] <- x[rs1] | imm_I` (R198). -/
def execOri (rd rs1 : RegIdx) (imm : BitVec 12) (s : State) : Result :=
  s.writeBack rd (s.x rs1 ||| immI imm)

/-- `x[rd] <- x[rs1] & imm_I` (R199). -/
def execAndi (rd rs1 : RegIdx) (imm : BitVec 12) (s : State) : Result :=
  s.writeBack rd (s.x rs1 &&& immI imm)

end Sys2Proof.Machine
end

