-- ==== Sys2Proof/Machine/OpReg.lean ====
section
/-! DEFINITION. The ten register-register instructions (spec/46_op.md R205 to R216). -/

namespace Sys2Proof.Machine

/-- `x[rd] <- x[rs1] + x[rs2]`, modulo 2^32 (R206). -/
def execAdd (rd rs1 rs2 : RegIdx) (s : State) : Result :=
  s.writeBack rd (s.x rs1 + s.x rs2)

/-- `x[rd] <- x[rs1] - x[rs2]`, modulo 2^32 (R207). -/
def execSub (rd rs1 rs2 : RegIdx) (s : State) : Result :=
  s.writeBack rd (s.x rs1 - s.x rs2)

/-- `x[rd] <- x[rs1] << x[rs2][4:0]` (R208; 90_conflicts.md C2). -/
def execSll (rd rs1 rs2 : RegIdx) (s : State) : Result :=
  s.writeBack rd (shiftLeft (s.x rs1) (shiftAmount (s.x rs2)))

/-- `x[rd] <- (x[rs1] <s x[rs2]) ? 1 : 0` (R209). -/
def execSlt (rd rs1 rs2 : RegIdx) (s : State) : Result :=
  s.writeBack rd (truthWord (ltSigned (s.x rs1) (s.x rs2)))

/-- `x[rd] <- (x[rs1] <u x[rs2]) ? 1 : 0` (R210). -/
def execSltu (rd rs1 rs2 : RegIdx) (s : State) : Result :=
  s.writeBack rd (truthWord (ltUnsigned (s.x rs1) (s.x rs2)))

/-- `x[rd] <- x[rs1] ^ x[rs2]` (R211). -/
def execXor (rd rs1 rs2 : RegIdx) (s : State) : Result :=
  s.writeBack rd (s.x rs1 ^^^ s.x rs2)

/-- `x[rd] <- x[rs1] >>u x[rs2][4:0]` (R212). -/
def execSrl (rd rs1 rs2 : RegIdx) (s : State) : Result :=
  s.writeBack rd (shiftRightLogical (s.x rs1) (shiftAmount (s.x rs2)))

/-- `x[rd] <- x[rs1] >>s x[rs2][4:0]` (R213). -/
def execSra (rd rs1 rs2 : RegIdx) (s : State) : Result :=
  s.writeBack rd (shiftRightArith (s.x rs1) (shiftAmount (s.x rs2)))

/-- `x[rd] <- x[rs1] | x[rs2]` (R214). -/
def execOr (rd rs1 rs2 : RegIdx) (s : State) : Result :=
  s.writeBack rd (s.x rs1 ||| s.x rs2)

/-- `x[rd] <- x[rs1] & x[rs2]` (R215). -/
def execAnd (rd rs1 rs2 : RegIdx) (s : State) : Result :=
  s.writeBack rd (s.x rs1 &&& s.x rs2)

end Sys2Proof.Machine
end

