-- ==== Sys2Proof/Machine/Stores.lean ====
section
/-! DEFINITION. The three stores (spec/44_stores.md R180 to R183). -/

namespace Sys2Proof.Machine

/-- `MemWrite(ea, 1, x[rs2][7:0])` (R181). -/
def execSb (rs1 rs2 : RegIdx) (imm : BitVec 12) (s : State) : Result :=
  s.storeFrom rs2 (s.storeAddr rs1 imm) .byte

/-- `MemWrite(ea, 2, x[rs2][15:0])` (R182). -/
def execSh (rs1 rs2 : RegIdx) (imm : BitVec 12) (s : State) : Result :=
  s.storeFrom rs2 (s.storeAddr rs1 imm) .half

/-- `MemWrite(ea, 4, x[rs2])` (R183). -/
def execSw (rs1 rs2 : RegIdx) (imm : BitVec 12) (s : State) : Result :=
  s.storeFrom rs2 (s.storeAddr rs1 imm) .word

end Sys2Proof.Machine
end

