-- ==== Sys2Proof/Machine/System.lean ====
section
/-! DEFINITION. MRET, the only system instruction (spec/47_system.md R220 to R224). -/

namespace Sys2Proof.Machine

/-- `pc <- mepc; in_irq <- 0` (R220), inside a handler or outside one (R222). -/
def execMret (s : State) : Result := s.returnFromInterrupt

end Sys2Proof.Machine
end

