-- ==== Sys2Proof/Machine/UpperImmediate.lean ====
section
/-! DEFINITION. LUI and AUIPC (spec/40_upper_immediate.md). -/

namespace Sys2Proof.Machine

/-- `x[rd] <- imm_U` (R140). -/
def execLui (rd : RegIdx) (imm : BitVec 20) (s : State) : Result := s.writeBack rd (immU imm)

/-- `x[rd] <- pc + imm_U`, modulo 2^32 (R141). -/
def execAuipc (rd : RegIdx) (imm : BitVec 20) (s : State) : Result := s.writeBack rd (s.pc + immU imm)

end Sys2Proof.Machine
end

