-- ==== Sys2Proof/Machine/Cycle.lean ====
section
/-! DEFINITION. One step of the core: fetch, decode, execute, then the interrupt test at the boundary
(spec/00_scope.md R14). The interrupt policy is an argument (spec/60_exceptions.md R241). -/

namespace Sys2Proof.Machine

open Sys2Proof

/-- Fetch, decode and execute one instruction: (a) to (e) of 00_scope.md R14, faults in the order of
60_exceptions.md R233. `pc` of the next state is the next address `t`. -/
def State.runInstr (s : State) : Result :=
  match s.fetch with
  | .error f => .fault f
  | .ok w =>
    match decode w with
    | .error _ => .fault (.illegalInstruction w s.pc)
    | .ok i => exec i s

/-- One step of the core under an interrupt policy: an instruction, and, if it completed without fault, the interrupt
test at its boundary (00_scope.md R14; 60_exceptions.md R240, R245). -/
def State.cycle (p : IrqPolicy) (s : State) : Result := mapNext (boundary p s) s.runInstr

/-- The state with a word stored at `pc`, little-endian (20_memory.md R65); only RAM and bitmap RAM can be fetched from
(20_memory.md R72), so a `pc` elsewhere places nothing. -/
def State.placeWord (s : State) (w : Word) : State :=
  if s.pc.toNat + 4 ≤ Config.memSize then { s with mem := s.mem.writeLE s.pc.toNat 4 w } else s

end Sys2Proof.Machine
end

