-- ==== Sys2Proof/Machine/Step.lean ====
section
/-! DEFINITION. One step of the machine: what the host does at this boundary, then one step of the core
(spec/00_scope.md R13, R14; spec/20_memory.md R80). -/

namespace Sys2Proof.Machine

open Sys2Proof

/-- One step: the host's turn, then the core's (20_memory.md R80: the host acts only between instructions), under the
implementation's interrupt policy (60_exceptions.md R241). -/
def step (s : State) : Host.Outcome State Fault Refusal := State.cycle Config.irqPolicy s.hostTurn

/-- The state with an instruction of `nbits` bits stored where `step` fetches its next instruction, little-endian. It
stands for the host's loading of a program before a run (60_exceptions.md R270). Log 3. -/
def State.withFetchWord (s : State) (nbits w : Nat) : State := s.placeWord (tableWord nbits w)

end Sys2Proof.Machine
end

