-- ==== Sys2Proof/Safety.lean ====
section
/-! DEFINITION. In the terms claims use: what an instruction names, frames, the invariant of the machine, runs and reachable states, a run without fault
(spec/60_exceptions.md R231), a terminal state (spec/70_reset_and_hazards.md R297). -/

namespace Sys2Proof

/-- The destination register of an instruction, where its format has the field `rd` (spec/30_encoding.md R101). -/
def Instr.rd? : Instr → Option RegIdx
  | .lui rd _ => some rd
  | .auipc rd _ => some rd
  | .jal rd _ => some rd
  | .jalr rd _ _ => some rd
  | .beq _ _ _ => none
  | .bne _ _ _ => none
  | .blt _ _ _ => none
  | .bge _ _ _ => none
  | .bltu _ _ _ => none
  | .bgeu _ _ _ => none
  | .lb rd _ _ => some rd
  | .lh rd _ _ => some rd
  | .lw rd _ _ => some rd
  | .lbu rd _ _ => some rd
  | .lhu rd _ _ => some rd
  | .sb _ _ _ => none
  | .sh _ _ _ => none
  | .sw _ _ _ => none
  | .addi rd _ _ => some rd
  | .slli rd _ _ => some rd
  | .slti rd _ _ => some rd
  | .sltiu rd _ _ => some rd
  | .xori rd _ _ => some rd
  | .srli rd _ _ => some rd
  | .srai rd _ _ => some rd
  | .ori rd _ _ => some rd
  | .andi rd _ _ => some rd
  | .add rd _ _ => some rd
  | .sub rd _ _ => some rd
  | .sll rd _ _ => some rd
  | .slt rd _ _ => some rd
  | .sltu rd _ _ => some rd
  | .xor rd _ _ => some rd
  | .srl rd _ _ => some rd
  | .sra rd _ _ => some rd
  | .or rd _ _ => some rd
  | .and rd _ _ => some rd
  | .mret => none

/-- The source registers of an instruction: its fields `rs1` and `rs2`, where the format has them
(spec/30_encoding.md R101); MRET reads none (R113). -/
def Instr.sources : Instr → List RegIdx
  | .lui _ _ => []
  | .auipc _ _ => []
  | .jal _ _ => []
  | .jalr _ rs1 _ => [rs1]
  | .beq rs1 rs2 _ => [rs1, rs2]
  | .bne rs1 rs2 _ => [rs1, rs2]
  | .blt rs1 rs2 _ => [rs1, rs2]
  | .bge rs1 rs2 _ => [rs1, rs2]
  | .bltu rs1 rs2 _ => [rs1, rs2]
  | .bgeu rs1 rs2 _ => [rs1, rs2]
  | .lb _ rs1 _ => [rs1]
  | .lh _ rs1 _ => [rs1]
  | .lw _ rs1 _ => [rs1]
  | .lbu _ rs1 _ => [rs1]
  | .lhu _ rs1 _ => [rs1]
  | .sb rs1 rs2 _ => [rs1, rs2]
  | .sh rs1 rs2 _ => [rs1, rs2]
  | .sw rs1 rs2 _ => [rs1, rs2]
  | .addi _ rs1 _ => [rs1]
  | .slli _ rs1 _ => [rs1]
  | .slti _ rs1 _ => [rs1]
  | .sltiu _ rs1 _ => [rs1]
  | .xori _ rs1 _ => [rs1]
  | .srli _ rs1 _ => [rs1]
  | .srai _ rs1 _ => [rs1]
  | .ori _ rs1 _ => [rs1]
  | .andi _ rs1 _ => [rs1]
  | .add _ rs1 rs2 => [rs1, rs2]
  | .sub _ rs1 rs2 => [rs1, rs2]
  | .sll _ rs1 rs2 => [rs1, rs2]
  | .slt _ rs1 rs2 => [rs1, rs2]
  | .sltu _ rs1 rs2 => [rs1, rs2]
  | .xor _ rs1 rs2 => [rs1, rs2]
  | .srl _ rs1 rs2 => [rs1, rs2]
  | .sra _ rs1 rs2 => [rs1, rs2]
  | .or _ rs1 rs2 => [rs1, rs2]
  | .and _ rs1 rs2 => [rs1, rs2]
  | .mret => []

/-- The mnemonic of an instruction's row in spec/opcode_table.json. -/
def Instr.mnemonic : Instr → String
  | .lui _ _ => "LUI"
  | .auipc _ _ => "AUIPC"
  | .jal _ _ => "JAL"
  | .jalr _ _ _ => "JALR"
  | .beq _ _ _ => "BEQ"
  | .bne _ _ _ => "BNE"
  | .blt _ _ _ => "BLT"
  | .bge _ _ _ => "BGE"
  | .bltu _ _ _ => "BLTU"
  | .bgeu _ _ _ => "BGEU"
  | .lb _ _ _ => "LB"
  | .lh _ _ _ => "LH"
  | .lw _ _ _ => "LW"
  | .lbu _ _ _ => "LBU"
  | .lhu _ _ _ => "LHU"
  | .sb _ _ _ => "SB"
  | .sh _ _ _ => "SH"
  | .sw _ _ _ => "SW"
  | .addi _ _ _ => "ADDI"
  | .slli _ _ _ => "SLLI"
  | .slti _ _ _ => "SLTI"
  | .sltiu _ _ _ => "SLTIU"
  | .xori _ _ _ => "XORI"
  | .srli _ _ _ => "SRLI"
  | .srai _ _ _ => "SRAI"
  | .ori _ _ _ => "ORI"
  | .andi _ _ _ => "ANDI"
  | .add _ _ _ => "ADD"
  | .sub _ _ _ => "SUB"
  | .sll _ _ _ => "SLL"
  | .slt _ _ _ => "SLT"
  | .sltu _ _ _ => "SLTU"
  | .xor _ _ _ => "XOR"
  | .srl _ _ _ => "SRL"
  | .sra _ _ _ => "SRA"
  | .or _ _ _ => "OR"
  | .and _ _ _ => "AND"
  | .mret => "MRET"

/-- SB, SH and SW: the instructions that store (spec/44_stores.md R184). -/
def Instr.isStore (i : Instr) : Bool := i.mnemonic == "SB" || i.mnemonic == "SH" || i.mnemonic == "SW"

end Sys2Proof

namespace Sys2Proof.Machine

open Sys2Proof

/-! ### Frames: what an instruction leaves unchanged -/

/-- `x[rd]` becomes `v` unless `rd` is 0; every other register keeps its value (10_state.md R32). -/
def WritesReg (s t : State) (rd : RegIdx) (v : Word) : Prop :=
  ∀ r, t.x r = if r = rd ∧ rd ≠ 0#5 then v else s.x r

/-- Every general register keeps its value. -/
def SameRegs (s t : State) : Prop := ∀ r, t.x r = s.x r

/-- Every byte of memory reads as before. -/
def SameMemory (s t : State) : Prop := ∀ a, t.mem.read a = s.mem.read a

/-- Every device register and the text output stream are unchanged. -/
structure SameDevices (s t : State) : Prop where
  ctrl : t.ctrl = s.ctrl
  data : t.data = s.data
  textOut : t.textOut = s.textOut
  dir : t.dir = s.dir
  ien : t.ien = s.ien
  rev : t.rev = s.rev
  fev : t.fev = s.fev
  val : t.val = s.val

/-- `mepc`, `in_irq` and the model's own interrupt and host fields are unchanged. -/
structure SameControl (s t : State) : Prop where
  mepc : t.mepc = s.mepc
  inIrq : t.inIrq = s.inIrq
  waited : t.waited = s.waited
  episode : t.episode = s.episode
  inputs : t.inputs = s.inputs

/-- The model's two counts behind its free values are unchanged. -/
def SameCounts (s t : State) : Prop := t.textReads = s.textReads ∧ t.changes = s.changes

/-- Only `x[rd]`, which becomes `v`, and `pc` can differ. -/
structure OnlyWritesReg (s t : State) (rd : RegIdx) (v : Word) : Prop where
  regs : WritesReg s t rd v
  memory : SameMemory s t
  devices : SameDevices s t
  control : SameControl s t
  counts : SameCounts s t

/-- Only `pc` can differ. -/
structure OnlyMovesPc (s t : State) : Prop where
  regs : SameRegs s t
  memory : SameMemory s t
  devices : SameDevices s t
  control : SameControl s t
  counts : SameCounts s t

/-- Instruction `i` completes at `s`, writes `v` to `rd`, changes nothing else and goes to `pc + 4`. -/
def ResultIs (i : Instr) (s : State) (rd : RegIdx) (v : Word) : Prop :=
  ∃ t, exec i s = .next t ∧ OnlyWritesReg s t rd v ∧ t.pc = s.pc + 4#32

/-! ### Invariant, runs, safety, terminal states -/

/-- The byte the last cell of an image that names an address gives it, if one does. -/
def lastNamed (image : List Host.Cell) (a : Nat) : Option Byte :=
  (image.reverse.find? fun c => c.1 == a).map Prod.snd

/-- What holds of every state at an instruction boundary: memory is in its canonical form and lists only RAM and bitmap
RAM (20_memory.md R60); x[0] holds 0 (10_state.md R32); `pc` is a multiple of 4 (10_state.md R35); the core is waiting to
take an interrupt only while one is requested and no handler runs (60_exceptions.md R240, R241). -/
structure State.Inv (s : State) : Prop where
  mem_wf : s.mem.wf = true
  mem_inRam : s.mem.inRam = true
  x0 : s.regs[0] = 0#32
  pc_aligned : isAligned4 s.pc = true
  waiting : s.waited ≠ 0 → s.isEligible = true

/-- `s` leads to `t` in some number of steps. -/
inductive Reaches : State → State → Prop where
  | refl (s : State) : Reaches s s
  | tail {s t u : State} : Reaches s t → step t = .next u → Reaches s u

/-- No step of the first `n` from `s` faults or is refused (60_exceptions.md R231: a claim of a program includes that no
fault is reached). -/
def SafeFor (n : Nat) (s : State) : Prop := ∃ t, Sys2Proof.core.run n s = .next t

/-- A terminal state: the word at `pc` decodes to `jal x0, 0` and nothing is requested (70_reset_and_hazards.md R297). R297
lets a model widen this definition to other endless loops (`beq x0, x0, 0`, loops of several instructions) or treat them
as running: this model does not widen it, so they are running. DESIGN CHOICE, log 15. -/
def State.Terminal (s : State) : Prop :=
  ∃ w, s.fetch = .ok w ∧ decode w = .ok (.jal 0#5 0#21) ∧ s.irqRequest = false

end Sys2Proof.Machine
end

