-- ==== Sys2Proof/Certificates/Slice0/Obligations.lean ====
section
/-! DEFINITION. The statements for the provers. A docstring cites the rule of spec/ a statement formalises; where a clause
rests on one of the spec's own decisions D<n> (spec/92_eei_decisions.md) or on a choice of the model, it says so. -/

open Sys2Proof Sys2Proof.Machine

/-! ### Encoding and decoding -/

/-- Words written out from the format and immediate tables decode to the instructions they stand for (R101, R103, R112;
the words are those of 95_test_vectors.md V-IMM and V-DEC). -/
def Obligations.SampleWordsDecode : Prop :=
  decode 0x123452B7#32 = .ok (.lui 5#5 0x12345#20) ∧
  decode 0x00001317#32 = .ok (.auipc 6#5 1#20) ∧
  decode 0xFF9FF06F#32 = .ok (.jal 0#5 (-8#21)) ∧
  decode 0x7FDFF0EF#32 = .ok (.jal 1#5 1048572#21) ∧
  decode 0x008282E7#32 = .ok (.jalr 5#5 5#5 8#12) ∧
  decode 0xFE029CE3#32 = .ok (.bne 5#5 0#5 (-8#13)) ∧
  decode 0x7E000FE3#32 = .ok (.beq 0#5 0#5 4094#13) ∧
  decode 0x00335283#32 = .ok (.lhu 5#5 6#5 3#12) ∧
  decode 0xFE512E23#32 = .ok (.sw 2#5 5#5 (-4#12)) ∧
  decode 0x005301A3#32 = .ok (.sb 6#5 5#5 3#12) ∧
  decode 0x80033293#32 = .ok (.sltiu 5#5 6#5 (-2048#12)) ∧
  decode 0x40435293#32 = .ok (.srai 5#5 6#5 4#5) ∧
  decode 0x01DF0FB3#32 = .ok (.add 31#5 30#5 29#5) ∧
  decode 0x302F8F73#32 = .ok .mret

/-- Decoding the encoding of a well-formed instruction gives the instruction back, for every operand (R101, R103, R112). -/
def Obligations.DecodeOfEncode : Prop :=
  ∀ i : Instr, WellFormed i = true → decode (encode i) = .ok i

/-- Every word that decodes is the encoding of a well-formed instruction, but that MRET ignores ten bits (R111, R113;
that the encoder writes them as zero is the model's choice, log 13). -/
def Obligations.EncodeOfDecode : Prop :=
  ∀ (w : Word) (i : Instr), decode w = .ok i →
    WellFormed i = true ∧
    (i ≠ .mret → encode i = w) ∧
    (i = .mret → encode i = 0x30200073#32 ∧ w &&& 0xFFF0707F#32 = 0x30200073#32)

/-- A word decodes to the instruction of a row exactly when `inst & mask = match` for the row's mask and match, for each
row of the decode table (R111, R112). -/
def Obligations.DecodeByMaskAndMatch : Prop :=
  ∀ w : Word, ∀ row ∈ ([
    ("LUI", 0x0000007F#32, 0x00000037#32), ("AUIPC", 0x0000007F#32, 0x00000017#32),
    ("JAL", 0x0000007F#32, 0x0000006F#32), ("JALR", 0x0000707F#32, 0x00000067#32),
    ("BEQ", 0x0000707F#32, 0x00000063#32), ("BNE", 0x0000707F#32, 0x00001063#32),
    ("BLT", 0x0000707F#32, 0x00004063#32), ("BGE", 0x0000707F#32, 0x00005063#32),
    ("BLTU", 0x0000707F#32, 0x00006063#32), ("BGEU", 0x0000707F#32, 0x00007063#32),
    ("LB", 0x0000707F#32, 0x00000003#32), ("LH", 0x0000707F#32, 0x00001003#32),
    ("LW", 0x0000707F#32, 0x00002003#32), ("LBU", 0x0000707F#32, 0x00004003#32),
    ("LHU", 0x0000707F#32, 0x00005003#32), ("SB", 0x0000707F#32, 0x00000023#32),
    ("SH", 0x0000707F#32, 0x00001023#32), ("SW", 0x0000707F#32, 0x00002023#32),
    ("ADDI", 0x0000707F#32, 0x00000013#32), ("SLLI", 0xFE00707F#32, 0x00001013#32),
    ("SLTI", 0x0000707F#32, 0x00002013#32), ("SLTIU", 0x0000707F#32, 0x00003013#32),
    ("XORI", 0x0000707F#32, 0x00004013#32), ("SRLI", 0xFE00707F#32, 0x00005013#32),
    ("SRAI", 0xFE00707F#32, 0x40005013#32), ("ORI", 0x0000707F#32, 0x00006013#32),
    ("ANDI", 0x0000707F#32, 0x00007013#32), ("ADD", 0xFE00707F#32, 0x00000033#32),
    ("SUB", 0xFE00707F#32, 0x40000033#32), ("SLL", 0xFE00707F#32, 0x00001033#32),
    ("SLT", 0xFE00707F#32, 0x00002033#32), ("SLTU", 0xFE00707F#32, 0x00003033#32),
    ("XOR", 0xFE00707F#32, 0x00004033#32), ("SRL", 0xFE00707F#32, 0x00005033#32),
    ("SRA", 0xFE00707F#32, 0x40005033#32), ("OR", 0xFE00707F#32, 0x00006033#32),
    ("AND", 0xFE00707F#32, 0x00007033#32), ("MRET", 0xFFF0707F#32, 0x30200073#32)] :
    List (String × Word × Word)),
    (w &&& row.2.1 = row.2.2 ↔ ∃ i, decode w = .ok i ∧ i.mnemonic = row.1)

/-- Every bit of the five immediates is the bit of the instruction word the immediate table gives (R103). -/
def Obligations.ImmediateBits : Prop :=
  ∀ (w : Word) (j : Nat), j < 32 →
    (immI (fieldI w)).getLsbD j = (if 11 ≤ j then w.getLsbD 31 else w.getLsbD (j + 20)) ∧
    (immS (fieldS w)).getLsbD j =
      (if 11 ≤ j then w.getLsbD 31 else if 5 ≤ j then w.getLsbD (j + 20) else w.getLsbD (j + 7)) ∧
    (immB (fieldB w)).getLsbD j =
      (if 12 ≤ j then w.getLsbD 31 else if j = 11 then w.getLsbD 7 else if 5 ≤ j then w.getLsbD (j + 20)
        else if 1 ≤ j then w.getLsbD (j + 7) else false) ∧
    (immU (fieldU w)).getLsbD j = (if 12 ≤ j then w.getLsbD j else false) ∧
    (immJ (fieldJ w)).getLsbD j =
      (if 20 ≤ j then w.getLsbD 31 else if 12 ≤ j then w.getLsbD j else if j = 11 then w.getLsbD 20
        else if 1 ≤ j then w.getLsbD (j + 20) else false)

/-- Words of instructions the hardware does not have are undecodable: FENCE, ECALL, EBREAK, WFI, SRET, CSR, multiply,
all-zero, all-one and others (R120, R121, R224; the words are those of 95_test_vectors.md V-DEC). -/
def Obligations.AbsentWordsUndecodable : Prop :=
  ∀ w ∈ [0x00000000#32, 0xFFFFFFFF#32, 0x00000001#32, 0x0000007F#32, 0x0000002F#32, 0x0000003B#32, 0x0FF0000F#32,
      0x0000100F#32, 0x00000073#32, 0x00100073#32, 0x10500073#32, 0x10200073#32, 0x30300073#32, 0x30201073#32,
      0x00001073#32, 0x027302B3#32, 0x407312B3#32, 0x02031293#32, 0x40031293#32, 0x20035293#32, 0x00003003#32,
      0x00006003#32, 0x00003023#32, 0x00002063#32, 0x00003063#32, 0x00001067#32],
    decode w = .error (.noRow w)

/-! ### The step -/

/-- When the four bytes at `pc` decode to an instruction, the step is that instruction at the state the host leaves,
followed by the interrupt test; the host's turn moves neither `pc` nor memory (R13, R14, R65, R80). The byte order of a
fetch is the spec's own decision D24, that the host acts between instructions is its D19, the order of a step's phases is
its own construction (R14), and the host's script is the model's (log 4). -/
def Obligations.StepRunsDecodedInstruction : Prop :=
  ∀ (s : State) (i : Instr), s.pc.toNat % 4 = 0 → s.pc.toNat < 0x1000 →
    decodeBytes [s.mem.read s.pc.toNat, s.mem.read (s.pc.toNat + 1), s.mem.read (s.pc.toNat + 2),
      s.mem.read (s.pc.toNat + 3)] = .ok (i, []) →
    s.hostTurn.pc = s.pc ∧ s.hostTurn.mem = s.mem ∧
    step s = mapNext (boundary Config.irqPolicy s.hostTurn) (exec i s.hostTurn)

/-- A word that matches no row stops the step with `IllegalInstruction` of that word and its address (R120; the spec's own
decision D9). -/
def Obligations.UndecodableWordFaults : Prop :=
  ∀ s : State, s.pc.toNat % 4 = 0 → s.pc.toNat < 0x1000 →
    (∀ i, decode (wordOfBytes (s.mem.read s.pc.toNat) (s.mem.read (s.pc.toNat + 1)) (s.mem.read (s.pc.toNat + 2))
      (s.mem.read (s.pc.toNat + 3))) ≠ .ok i) →
    step s = .fault (.illegalInstruction (wordOfBytes (s.mem.read s.pc.toNat) (s.mem.read (s.pc.toNat + 1))
      (s.mem.read (s.pc.toNat + 2)) (s.mem.read (s.pc.toNat + 3))) s.pc)

/-- A fetch outside memory stops the step: `UnsupportedDeviceAccess` at a device address, `UnmappedAccess` elsewhere
(R72; the spec's own decision D7). -/
def Obligations.FetchOutsideMemoryFaults : Prop :=
  ∀ s : State, s.pc.toNat % 4 = 0 → 0x1000 ≤ s.pc.toNat →
    step s = .fault
      (if s.pc.toNat = 0xB0000000 ∨ s.pc.toNat = 0xC0000000 ∨ (0xD0000000 ≤ s.pc.toNat ∧ s.pc.toNat ≤ 0xD0000010) then
        .unsupportedDeviceAccess s.pc .word .fetch
      else .unmappedAccess s.pc .word .fetch)

/-- No instruction is refused: every row of the opcode table has a meaning (R2, R112). -/
def Obligations.NothingIsRefused : Prop :=
  ∀ (s : State) (r : Refusal), step s ≠ .refused r ∧ ∀ i, exec i s ≠ .refused r

/-! ### Upper immediate, jumps, branches -/

/-- LUI writes the field times 4096, AUIPC adds it to its own address modulo 2^32; nothing else changes (R140, R141). -/
def Obligations.UpperImmediateResults : Prop :=
  ∀ (s : State) (rd : RegIdx) (imm : BitVec 20), s.pc.toNat % 4 = 0 →
    ResultIs (.lui rd imm) s rd (BitVec.ofNat 32 (imm.toNat * 4096)) ∧
    ResultIs (.auipc rd imm) s rd (BitVec.ofNat 32 (s.pc.toNat + imm.toNat * 4096))

/-- For every 32-bit value, LUI and ADDI with its parts leave it in the register, and AUIPC and ADDI with the parts of a
target's distance form the target (R142). -/
def Obligations.UpperAndLowerPartsFormValue : Prop :=
  ∀ (v : Word) (rd : RegIdx) (s : State), rd ≠ 0#5 → s.pc.toNat % 4 = 0 →
    (∃ t u, exec (.lui rd ((v - (v.setWidth 12).signExtend 32).extractLsb' 12 20)) s = .next t ∧
      exec (.addi rd rd (v.setWidth 12)) t = .next u ∧ u.x rd = v) ∧
    (∃ t u, exec (.auipc rd ((v - (v.setWidth 12).signExtend 32).extractLsb' 12 20)) s = .next t ∧
      exec (.addi rd rd (v.setWidth 12)) t = .next u ∧ u.x rd = s.pc + v)

/-- JAL and JALR with a target that is a multiple of 4: the link is the address of the next instruction, the target uses
the old registers and the instruction's own address, nothing else changes (R150, R151). -/
def Obligations.JumpResults : Prop :=
  ∀ (s : State) (rd rs1 : RegIdx) (off : BitVec 21) (imm : BitVec 12),
    ((s.pc.toInt + off.toInt) % 4 = 0 →
      ∃ t, exec (.jal rd off) s = .next t ∧ OnlyWritesReg s t rd (s.pc + 4#32) ∧
        t.pc = BitVec.ofInt 32 (s.pc.toInt + off.toInt)) ∧
    (((s.x rs1).toInt + imm.toInt) % 4 = 0 →
      ∃ t, exec (.jalr rd rs1 imm) s = .next t ∧ OnlyWritesReg s t rd (s.pc + 4#32) ∧
        t.pc = BitVec.ofInt 32 ((s.x rs1).toInt + imm.toInt))

/-- JAL and JALR with any other target stop with `MisalignedTarget`: no bit of the target is cleared and no link is written
(R36, R150, R151; the spec's own decision D5). -/
def Obligations.MisalignedJumpFaults : Prop :=
  ∀ (s : State) (rd rs1 : RegIdx) (off : BitVec 21) (imm : BitVec 12),
    ((s.pc.toInt + off.toInt) % 4 ≠ 0 →
      exec (.jal rd off) s = .fault (.misalignedTarget (BitVec.ofInt 32 (s.pc.toInt + off.toInt)) s.pc)) ∧
    (((s.x rs1).toInt + imm.toInt) % 4 ≠ 0 →
      exec (.jalr rd rs1 imm) s =
        .fault (.misalignedTarget (BitVec.ofInt 32 ((s.x rs1).toInt + imm.toInt)) s.pc))

/-- The six branches: taken to `pc` plus the offset when the condition holds, to `pc + 4` when it does not; no register, no
memory and no device changes (R160 to R166). -/
def Obligations.BranchResults : Prop :=
  ∀ (s : State) (rs1 rs2 : RegIdx) (off : BitVec 13), s.pc.toNat % 4 = 0 →
    ∀ p ∈ ([(.beq rs1 rs2 off, s.x rs1 = s.x rs2), (.bne rs1 rs2 off, s.x rs1 ≠ s.x rs2),
        (.blt rs1 rs2 off, (s.x rs1).toInt < (s.x rs2).toInt), (.bge rs1 rs2 off, (s.x rs2).toInt ≤ (s.x rs1).toInt),
        (.bltu rs1 rs2 off, (s.x rs1).toNat < (s.x rs2).toNat), (.bgeu rs1 rs2 off, (s.x rs2).toNat ≤ (s.x rs1).toNat)] :
        List (Instr × Prop)),
      (p.2 → off.toInt % 4 = 0 → ∃ t, exec p.1 s = .next t ∧ OnlyMovesPc s t ∧
        t.pc = BitVec.ofInt 32 (s.pc.toInt + off.toInt)) ∧
      (¬p.2 → ∃ t, exec p.1 s = .next t ∧ OnlyMovesPc s t ∧ t.pc = s.pc + 4#32)

/-- A branch stops with `MisalignedTarget` when it is taken and its offset is no multiple of 4 (R36, R160; the spec's own
decision D5). -/
def Obligations.MisalignedBranchFaults : Prop :=
  ∀ (s : State) (rs1 rs2 : RegIdx) (off : BitVec 13), s.pc.toNat % 4 = 0 → off.toInt % 4 ≠ 0 →
    ∀ p ∈ ([(.beq rs1 rs2 off, s.x rs1 = s.x rs2), (.bne rs1 rs2 off, s.x rs1 ≠ s.x rs2),
        (.blt rs1 rs2 off, (s.x rs1).toInt < (s.x rs2).toInt), (.bge rs1 rs2 off, (s.x rs2).toInt ≤ (s.x rs1).toInt),
        (.bltu rs1 rs2 off, (s.x rs1).toNat < (s.x rs2).toNat), (.bgeu rs1 rs2 off, (s.x rs2).toNat ≤ (s.x rs1).toNat)] :
        List (Instr × Prop)),
      p.2 → exec p.1 s = .fault (.misalignedTarget (BitVec.ofInt 32 (s.pc.toInt + off.toInt)) s.pc)

/-! ### Register-immediate and register-register instructions -/

/-- ADDI, ADD and SUB: the exact signed sum or difference modulo 2^32; nothing else changes (R191, R206, R207; the wrap is
the spec's own decision D4). -/
def Obligations.AddSubResults : Prop :=
  ∀ (s : State) (rd rs1 rs2 : RegIdx) (imm : BitVec 12), s.pc.toNat % 4 = 0 →
    ResultIs (.addi rd rs1 imm) s rd (BitVec.ofInt 32 ((s.x rs1).toInt + imm.toInt)) ∧
    ResultIs (.add rd rs1 rs2) s rd (BitVec.ofInt 32 ((s.x rs1).toInt + (s.x rs2).toInt)) ∧
    ResultIs (.sub rd rs1 rs2) s rd (BitVec.ofInt 32 ((s.x rs1).toInt - (s.x rs2).toInt))

/-- XORI, ORI, ANDI, XOR, OR and AND, bit by bit; bits 31 to 11 of an immediate are copies of its bit 11; nothing else
changes (R104, R195, R198, R199, R211, R214, R215). -/
def Obligations.LogicResults : Prop :=
  ∀ (s : State) (rd rs1 rs2 : RegIdx) (imm : BitVec 12), s.pc.toNat % 4 = 0 →
    ∀ p ∈ ([(.xori rd rs1 imm, fun j => (s.x rs1).getLsbD j ^^ imm.getLsbD (min j 11)),
        (.ori rd rs1 imm, fun j => (s.x rs1).getLsbD j || imm.getLsbD (min j 11)),
        (.andi rd rs1 imm, fun j => (s.x rs1).getLsbD j && imm.getLsbD (min j 11)),
        (.xor rd rs1 rs2, fun j => (s.x rs1).getLsbD j ^^ (s.x rs2).getLsbD j),
        (.or rd rs1 rs2, fun j => (s.x rs1).getLsbD j || (s.x rs2).getLsbD j),
        (.and rd rs1 rs2, fun j => (s.x rs1).getLsbD j && (s.x rs2).getLsbD j)] : List (Instr × (Nat → Bool))),
      ∃ v : Word, ResultIs p.1 s rd v ∧ ∀ j, j < 32 → v.getLsbD j = p.2 j

/-- The six shifts, bit by bit, by 0 to 31: the amount is the field, or the register's value modulo 32; zeros enter, or
copies of bit 31 for SRA and SRAI; nothing else changes (R109, R192, R196, R197, R205, R208, R212, R213). That SLL too
uses only five bits of the register is the spec's own decision D10. -/
def Obligations.ShiftResults : Prop :=
  ∀ (s : State) (rd rs1 rs2 : RegIdx) (shamt : BitVec 5), s.pc.toNat % 4 = 0 →
    ∀ p ∈ ([(.slli rd rs1 shamt, fun j => decide (shamt.toNat ≤ j) && (s.x rs1).getLsbD (j - shamt.toNat)),
        (.srli rd rs1 shamt, fun j => decide (j + shamt.toNat ≤ 31) && (s.x rs1).getLsbD (j + shamt.toNat)),
        (.srai rd rs1 shamt, fun j => (s.x rs1).getLsbD (min (j + shamt.toNat) 31)),
        (.sll rd rs1 rs2, fun j => decide ((s.x rs2).toNat % 32 ≤ j) && (s.x rs1).getLsbD (j - (s.x rs2).toNat % 32)),
        (.srl rd rs1 rs2, fun j => decide (j + (s.x rs2).toNat % 32 ≤ 31) && (s.x rs1).getLsbD (j + (s.x rs2).toNat % 32)),
        (.sra rd rs1 rs2, fun j => (s.x rs1).getLsbD (min (j + (s.x rs2).toNat % 32) 31))] :
        List (Instr × (Nat → Bool))),
      ∃ v : Word, ResultIs p.1 s rd v ∧ ∀ j, j < 32 → v.getLsbD j = p.2 j

/-- SLTI, SLTIU, SLT and SLTU write exactly 1 or 0; SLTIU sign-extends its immediate and then compares as unsigned; nothing
else changes (R193, R194, R209, R210). -/
def Obligations.SetLessResults : Prop :=
  ∀ (s : State) (rd rs1 rs2 : RegIdx) (imm : BitVec 12), s.pc.toNat % 4 = 0 →
    ResultIs (.slti rd rs1 imm) s rd (if (s.x rs1).toInt < imm.toInt then 1#32 else 0#32) ∧
    ResultIs (.sltiu rd rs1 imm) s rd (if ((s.x rs1).toNat : Int) < imm.toInt % 2 ^ 32 then 1#32 else 0#32) ∧
    ResultIs (.slt rd rs1 rs2) s rd (if (s.x rs1).toInt < (s.x rs2).toInt then 1#32 else 0#32) ∧
    ResultIs (.sltu rd rs1 rs2) s rd (if (s.x rs1).toNat < (s.x rs2).toNat then 1#32 else 0#32)

/-! ### Loads -/

/-- The five loads from memory, at every address of RAM and bitmap RAM the size divides: the bytes joined little-endian,
sign- or zero-extended; nothing else changes (R64, R70, R170 to R175). -/
def Obligations.MemoryLoadResults : Prop :=
  ∀ (s : State) (rd rs1 : RegIdx) (imm : BitVec 12) (a : Nat), a = (s.loadAddr rs1 imm).toNat →
    s.pc.toNat % 4 = 0 → a < 0x1000 →
    ResultIs (.lbu rd rs1 imm) s rd (BitVec.ofNat 32 (s.mem.read a).toNat) ∧
    ResultIs (.lb rd rs1 imm) s rd (BitVec.ofInt 32 (s.mem.read a).toInt) ∧
    (a % 2 = 0 →
      ResultIs (.lhu rd rs1 imm) s rd (BitVec.ofNat 32 ((s.mem.read a).toNat + 256 * (s.mem.read (a + 1)).toNat)) ∧
      ResultIs (.lh rd rs1 imm) s rd (BitVec.ofInt 32 ((s.mem.read a).toNat + 256 * (s.mem.read (a + 1)).toInt))) ∧
    (a % 4 = 0 →
      ResultIs (.lw rd rs1 imm) s rd (BitVec.ofNat 32 ((s.mem.read a).toNat + 256 * (s.mem.read (a + 1)).toNat
        + 65536 * (s.mem.read (a + 2)).toNat + 16777216 * (s.mem.read (a + 3)).toNat)))

/-- Loads from the text input: `ctrl` gives bits 7 and 6 as they stand and any bits 5 to 0, `data` gives the last
character; no load has a side effect (R253, R255; the spec's own decision D15). -/
def Obligations.TextInputLoadResults : Prop :=
  ∀ (s : State) (rd rs1 : RegIdx) (imm : BitVec 12), s.pc.toNat % 4 = 0 →
    (s.loadAddr rs1 imm = 0xB0000000#32 →
      ∃ b : Byte, b.getLsbD 7 = s.ctrl.getLsbD 7 ∧ b.getLsbD 6 = s.ctrl.getLsbD 6 ∧
        ResultIs (.lbu rd rs1 imm) s rd (BitVec.ofNat 32 b.toNat) ∧
        ResultIs (.lb rd rs1 imm) s rd (BitVec.ofInt 32 b.toInt)) ∧
    (s.loadAddr rs1 imm = 0xB0000001#32 →
      ResultIs (.lbu rd rs1 imm) s rd (BitVec.ofNat 32 s.data.toNat) ∧
      ResultIs (.lb rd rs1 imm) s rd (BitVec.ofInt 32 s.data.toInt))

/-- A load from the write-only text output completes with some byte and changes nothing but its register, `pc` and the
model's count of such loads (R258; the spec's own decision D16; the count is log 6). -/
def Obligations.TextOutputLoadResults : Prop :=
  ∀ (s : State) (rd rs1 : RegIdx) (imm : BitVec 12), s.pc.toNat % 4 = 0 → s.loadAddr rs1 imm = 0xC0000000#32 →
    ∃ (b : Byte) (t u : State),
      exec (.lbu rd rs1 imm) s = .next t ∧ exec (.lb rd rs1 imm) s = .next u ∧
      WritesReg s t rd (BitVec.ofNat 32 b.toNat) ∧ WritesReg s u rd (BitVec.ofInt 32 b.toInt) ∧
      (∀ r ∈ [t, u], SameMemory s r ∧ SameDevices s r ∧ SameControl s r ∧ r.changes = s.changes ∧
        r.textReads = s.textReads + 1 ∧ r.pc = s.pc + 4#32)

/-- LW from each GPIO register returns it and has no side effect (R260, R263; that a load has no side effect is the spec's
own decision D17). -/
def Obligations.GpioLoadResults : Prop :=
  ∀ (s : State) (rd rs1 : RegIdx) (imm : BitVec 12), s.pc.toNat % 4 = 0 →
    ∀ p ∈ ([(0xD0000000#32, s.dir), (0xD0000004#32, s.ien), (0xD0000008#32, s.rev), (0xD000000C#32, s.fev),
        (0xD0000010#32, s.val)] : List (Word × Word)),
      s.loadAddr rs1 imm = p.1 → ResultIs (.lw rd rs1 imm) s rd p.2

/-- Where each load stops, in the order of the checks: misaligned, unmapped, a width its device does not admit
(R67, R68, R70, R170; the spec's own decisions D6, D7, D8). An access that starts in a device is judged by R68's table
(log 9). -/
def Obligations.LoadFaults : Prop :=
  ∀ (s : State) (rd rs1 : RegIdx) (imm : BitVec 12) (a : Word), a = s.loadAddr rs1 imm →
    ∀ p ∈ ([(.lb rd rs1 imm, .byte), (.lbu rd rs1 imm, .byte), (.lh rd rs1 imm, .half), (.lhu rd rs1 imm, .half),
        (.lw rd rs1 imm, .word)] : List (Instr × AccessSize)),
      (a.toNat % p.2.bytes ≠ 0 → exec p.1 s = .fault (.misalignedAccess a p.2)) ∧
      (a.toNat % p.2.bytes = 0 → 0x1000 ≤ a.toNat → a ≠ 0xB0000000#32 → a ≠ 0xB0000001#32 → a ≠ 0xC0000000#32 →
        ¬(0xD0000000 ≤ a.toNat ∧ a.toNat < 0xD0000014) → exec p.1 s = .fault (.unmappedAccess a p.2 .load)) ∧
      (a.toNat % p.2.bytes = 0 →
        (p.2 ≠ .byte ∧ (a = 0xB0000000#32 ∨ a = 0xB0000001#32 ∨ a = 0xC0000000#32)) ∨
        (p.2 ≠ .word ∧ 0xD0000000 ≤ a.toNat ∧ a.toNat < 0xD0000014) →
        exec p.1 s = .fault (.unsupportedDeviceAccess a p.2 .load))

/-- Two loads of the same address with one instruction that stores nothing between them give the same value, except from the
write-only text output (R73; the spec's own derivation, resting on D15 to D17). -/
def Obligations.LoadsAreIdempotent : Prop :=
  ∀ (i : Instr) (s t : State) (a : Word) (size : AccessSize) (v : Word) (s' : State),
    i.isStore = false → exec i s = .next t → a ≠ 0xC0000000#32 → s.memRead a size = .ok (v, s') →
    ∃ t', t.memRead a size = .ok (v, t')

/-! ### Stores -/

/-- The three stores to memory, at every address of RAM and bitmap RAM the size divides: the low bytes of the register in
little-endian order, and no other byte, register or device changes (R64, R71, R180 to R183; `changes` is log 7). -/
def Obligations.MemoryStoreResults : Prop :=
  ∀ (s : State) (rs1 rs2 : RegIdx) (imm : BitVec 12) (a : Nat), a = (s.storeAddr rs1 imm).toNat → s.mem.wf = true →
    s.pc.toNat % 4 = 0 → a < 0x1000 →
    ∀ p ∈ ([(.sb rs1 rs2 imm, 1), (.sh rs1 rs2 imm, 2), (.sw rs1 rs2 imm, 4)] : List (Instr × Nat)), a % p.2 = 0 →
      ∃ t, exec p.1 s = .next t ∧ t.pc = s.pc + 4#32 ∧
        (∀ k, k < p.2 → t.mem.read (a + k) = BitVec.ofNat 8 ((s.x rs2).toNat / 256 ^ k)) ∧
        (∀ b, b < a ∨ a + p.2 ≤ b → t.mem.read b = s.mem.read b) ∧
        SameRegs s t ∧ SameDevices s t ∧ SameControl s t ∧ t.textReads = s.textReads ∧ t.changes = s.changes + 1

/-- SB to the text input's `ctrl` writes bits 7 and 6 and nothing else: not `data`, not memory, no register
(R254; the spec's own decision D15). That the six spare bits stay as they were is the model's choice, log 8; the count
`changes` is log 7. -/
def Obligations.CtrlStoreResults : Prop :=
  ∀ (s : State) (rs1 rs2 : RegIdx) (imm : BitVec 12), s.pc.toNat % 4 = 0 → s.storeAddr rs1 imm = 0xB0000000#32 →
    ∃ t, exec (.sb rs1 rs2 imm) s = .next t ∧ t.pc = s.pc + 4#32 ∧
      t.ctrl.getLsbD 7 = (s.x rs2).getLsbD 7 ∧ t.ctrl.getLsbD 6 = (s.x rs2).getLsbD 6 ∧
      (∀ j, j < 6 → t.ctrl.getLsbD j = s.ctrl.getLsbD j) ∧
      SameDevices { s with ctrl := t.ctrl } t ∧ SameRegs s t ∧ SameMemory s t ∧ SameControl s t ∧
      t.textReads = s.textReads ∧ t.changes = s.changes + 1

/-- SB to the text output appends the low byte of the register to the stream, and nothing else changes (R257). -/
def Obligations.TextOutputStoreResults : Prop :=
  ∀ (s : State) (rs1 rs2 : RegIdx) (imm : BitVec 12), s.pc.toNat % 4 = 0 → s.storeAddr rs1 imm = 0xC0000000#32 →
    ∃ t, exec (.sb rs1 rs2 imm) s = .next t ∧ t.pc = s.pc + 4#32 ∧
      t.textOut = s.textOut ++ [BitVec.ofNat 8 (s.x rs2).toNat] ∧
      SameDevices { s with textOut := t.textOut } t ∧ SameRegs s t ∧ SameMemory s t ∧ SameControl s t ∧
      t.textReads = s.textReads ∧ t.changes = s.changes + 1

/-- SW to a GPIO register replaces the whole register; to `val` it writes the bits of output pins only; no other register,
no event and no memory changes (R264; the spec's own decision D17). -/
def Obligations.GpioStoreResults : Prop :=
  ∀ (s : State) (rs1 rs2 : RegIdx) (imm : BitVec 12), s.pc.toNat % 4 = 0 →
    ∀ a ∈ [0xD0000000#32, 0xD0000004#32, 0xD0000008#32, 0xD000000C#32, 0xD0000010#32], s.storeAddr rs1 imm = a →
      ∃ t, exec (.sw rs1 rs2 imm) s = .next t ∧ t.pc = s.pc + 4#32 ∧
        t.dir = (if a = 0xD0000000#32 then s.x rs2 else s.dir) ∧
        t.ien = (if a = 0xD0000004#32 then s.x rs2 else s.ien) ∧
        t.rev = (if a = 0xD0000008#32 then s.x rs2 else s.rev) ∧
        t.fev = (if a = 0xD000000C#32 then s.x rs2 else s.fev) ∧
        (∀ j, j < 32 → t.val.getLsbD j =
          if a = 0xD0000010#32 ∧ s.dir.getLsbD j = false then (s.x rs2).getLsbD j else s.val.getLsbD j) ∧
        t.ctrl = s.ctrl ∧ t.data = s.data ∧ t.textOut = s.textOut ∧ SameRegs s t ∧ SameMemory s t ∧ SameControl s t ∧
        t.textReads = s.textReads ∧ t.changes = s.changes + 1

/-- Where each store stops, in the order of the checks; a store to the text input's `data` is refused too
(R67, R68, R71, R180, R256; the spec's own decisions D6, D7, D8, D16). An access that starts in a device is judged by
R68's table (log 9). -/
def Obligations.StoreFaults : Prop :=
  ∀ (s : State) (rs1 rs2 : RegIdx) (imm : BitVec 12) (a : Word), a = s.storeAddr rs1 imm →
    ∀ p ∈ ([(.sb rs1 rs2 imm, .byte), (.sh rs1 rs2 imm, .half), (.sw rs1 rs2 imm, .word)] : List (Instr × AccessSize)),
      (a.toNat % p.2.bytes ≠ 0 → exec p.1 s = .fault (.misalignedAccess a p.2)) ∧
      (a.toNat % p.2.bytes = 0 → 0x1000 ≤ a.toNat → a ≠ 0xB0000000#32 → a ≠ 0xB0000001#32 → a ≠ 0xC0000000#32 →
        ¬(0xD0000000 ≤ a.toNat ∧ a.toNat < 0xD0000014) → exec p.1 s = .fault (.unmappedAccess a p.2 .store)) ∧
      (a.toNat % p.2.bytes = 0 →
        a = 0xB0000001#32 ∨ (p.2 ≠ .byte ∧ (a = 0xB0000000#32 ∨ a = 0xC0000000#32)) ∨
        (p.2 ≠ .word ∧ 0xD0000000 ≤ a.toNat ∧ a.toNat < 0xD0000014) →
        exec p.1 s = .fault (.unsupportedDeviceAccess a p.2 .store))

/-- After a word or half-word store each byte lies at its little-endian place, and narrower loads see the bytes at their
addresses (R64). -/
def Obligations.LittleEndianStoreThenLoad : Prop :=
  ∀ (s t : State) (rs1 rs2 rd : RegIdx) (imm : BitVec 12), s.mem.wf = true → rd ≠ 0#5 →
    (s.storeAddr rs1 imm).toNat < 0x1000 →
    (exec (.sw rs1 rs2 imm) s = .next t →
      (∀ (r : RegIdx) (j : BitVec 12) (k : Nat), k < 4 → (t.loadAddr r j).toNat = (s.storeAddr rs1 imm).toNat + k →
        ∃ u, exec (.lbu rd r j) t = .next u ∧ u.x rd = ((s.x rs2).extractLsb' (8 * k) 8).setWidth 32) ∧
      (∀ (r : RegIdx) (j : BitVec 12) (k : Nat), k < 2 → (t.loadAddr r j).toNat = (s.storeAddr rs1 imm).toNat + 2 * k →
        ∃ u, exec (.lhu rd r j) t = .next u ∧ u.x rd = ((s.x rs2).extractLsb' (16 * k) 16).setWidth 32)) ∧
    (exec (.sh rs1 rs2 imm) s = .next t →
      ∀ (r : RegIdx) (j : BitVec 12) (k : Nat), k < 2 → (t.loadAddr r j).toNat = (s.storeAddr rs1 imm).toNat + k →
        ∃ u, exec (.lbu rd r j) t = .next u ∧ u.x rd = ((s.x rs2).extractLsb' (8 * k) 8).setWidth 32)

/-- A word stored to memory is the word a later fetch from that address gets (R82; the spec's own decision D20). -/
def Obligations.StoreSeenByFetch : Prop :=
  ∀ (s t u : State) (rs1 rs2 : RegIdx) (imm : BitVec 12), s.mem.wf = true → (s.storeAddr rs1 imm).toNat < 0x1000 →
    exec (.sw rs1 rs2 imm) s = .next t → u.mem = t.mem → u.pc = s.storeAddr rs1 imm → u.fetch = .ok (s.x rs2)

/-- The three stores are all the ways a program writes memory or a device (R184). -/
def Obligations.OnlyStoresWriteMemoryOrDevices : Prop :=
  ∀ (i : Instr) (s t : State), exec i s = .next t → i.isStore = false → t.mem = s.mem ∧ SameDevices s t

/-! ### Registers -/

/-- `x[0]` reads 0 in every state, and an instruction whose destination is `x[0]`, or that has none, changes no register
(R32, R122; the spec's own decision D2). -/
def Obligations.ZeroRegisterDiscards : Prop :=
  (∀ s : State, s.x 0#5 = 0#32) ∧
  ∀ (i : Instr) (s t : State), exec i s = .next t → i.rd? = some 0#5 ∨ i.rd? = none → SameRegs s t

/-- An instruction neither reads nor writes a general register it does not name, and the boundary touches none: changing an
unnamed register before an instruction is changing it after (R49). -/
def Obligations.UnnamedRegistersUntouched : Prop :=
  ∀ (i : Instr) (s : State) (r : RegIdx) (v : Word), i.rd? ≠ some r → r ∉ i.sources →
    exec i (s.setX r v) = mapNext (fun t => t.setX r v) (exec i s) ∧
    ∀ p b, (boundary p b s).regs = s.regs

/-- MRET reads `mepc` and no other instruction does, no instruction writes it, and the boundary writes it only with the next
address, on entering the handler at 4 (R38). -/
def Obligations.MepcIsInterruptOnly : Prop :=
  (∀ (i : Instr) (s : State) (v : Word), i ≠ .mret →
    exec i { s with mepc := v } = mapNext (fun t => { t with mepc := v }) (exec i s)) ∧
  (∀ (s t : State), exec .mret s = .next t → t.pc = s.mepc) ∧
  (∀ (i : Instr) (s t : State), exec i s = .next t → t.mepc = s.mepc) ∧
  (∀ (p : IrqPolicy) (b a : State), (boundary p b a).mepc = a.mepc ∨
    ((boundary p b a).mepc = a.pc ∧ (boundary p b a).pc = 4#32))

/-! ### The interrupt -/

/-- The request line: the text input asks when bits 7 and 6 of `ctrl` are both 1, the GPIO when some pin is enabled and has
an event (R246; the spec's own decision D14). -/
def Obligations.RequestLine : Prop :=
  ∀ s : State, s.irqRequest = true ↔
    (s.ctrl.getLsbD 7 = true ∧ s.ctrl.getLsbD 6 = true) ∨
    ∃ j, j < 32 ∧ s.ien.getLsbD j = true ∧ (s.rev.getLsbD j = true ∨ s.fev.getLsbD j = true)

/-- Interrupt entry under the policy `immediate`: after an instruction that completes outside a handler with a request up,
`mepc` holds its next address, `pc` is 4, `in_irq` is 1, and registers, memory and devices are as it left them
(R240, R241, R242, R243; the spec's own decisions D11, D12, D13). -/
def Obligations.ImmediateEntry : Prop :=
  ∀ (s t : State), s.runInstr = .next t → s.inIrq = false → t.irqRequest = true →
    ∃ u, s.cycle .immediate = .next u ∧ u.mepc = t.pc ∧ u.pc = 4#32 ∧ u.inIrq = true ∧ u.regs = t.regs ∧
      u.mem = t.mem ∧ SameDevices t u ∧ u.textReads = t.textReads ∧ u.changes = t.changes ∧ u.inputs = t.inputs

/-- Under `immediate` no interrupt is taken at the boundary right after the MRET that ends a handler, even with the request
still up (R223, R241; the spec's own decision D13). -/
def Obligations.ImmediateSkipsBoundaryAfterMret : Prop :=
  ∀ (s t : State), s.runInstr = .next t → s.inIrq = true → t.inIrq = false →
    ∃ u, s.cycle .immediate = .next u ∧ u.pc = t.pc ∧ u.inIrq = false ∧ u.mepc = t.mepc ∧ u.regs = t.regs ∧
      u.mem = t.mem ∧ SameDevices t u

/-- Without a request, or inside a handler, no policy takes an interrupt: the boundary leaves everything the spec names as
the instruction left it (R240, R244; the spec's own decisions D11, D12). -/
def Obligations.NoEntryUnlessEligible : Prop :=
  ∀ (p : IrqPolicy) (s t : State), s.runInstr = .next t → t.irqRequest = false ∨ t.inIrq = true →
    ∃ u, s.cycle p = .next u ∧ u.pc = t.pc ∧ u.mepc = t.mepc ∧ u.inIrq = t.inIrq ∧ u.regs = t.regs ∧ u.mem = t.mem ∧
      SameDevices t u

/-- While a handler runs, a step that does not run MRET keeps `in_irq` at 1 and `mepc` as it is: interrupts do not nest, and
only MRET ends the handler (R41, R244; the spec's own decision D12). -/
def Obligations.NoNesting : Prop :=
  ∀ (s u : State) (w : Word), s.inIrq = true → s.fetch = .ok w → decode w ≠ .ok .mret → step s = .next u →
    u.inIrq = true ∧ u.mepc = s.mepc

/-- MRET with an aligned `mepc`: `pc` is `mepc`, `in_irq` is 0, nothing else changes, in a handler or outside one; with any
other `mepc` it stops with `MisalignedTarget` (R220, R221, R222; clearing `in_irq`, the case outside a handler and the fault
are the spec's own decisions D12, D21, D5). -/
def Obligations.MretResults : Prop :=
  ∀ s : State,
    (s.mepc.toNat % 4 = 0 → ∃ t, exec .mret s = .next t ∧ t.pc = s.mepc ∧ t.inIrq = false ∧ t.mepc = s.mepc ∧
      SameRegs s t ∧ SameMemory s t ∧ SameDevices s t ∧ SameCounts s t ∧ t.waited = s.waited ∧
      t.episode = s.episode ∧ t.inputs = s.inputs) ∧
    (s.mepc.toNat % 4 ≠ 0 → exec .mret s = .fault (.misalignedTarget s.mepc s.pc))

/-- A handler is transparent: entry after an instruction and, later, an MRET with `mepc` untouched go on at the address the
interrupted instruction would have gone to (R220, R242, R243; the spec's own decision D11). -/
def Obligations.ReturnGoesToInterruptedAddress : Prop :=
  ∀ (i : Instr) (s t h : State), exec i s = .next t → h.mepc = t.takeInterrupt.mepc →
    ∃ u, exec .mret h = .next u ∧ u.pc = t.pc

/-- Weak fairness, with its bound: along every run, under either policy, the request does not stay up outside a handler for
more than the policy's latency; the interrupt is taken, the request drops or a handler runs
(R241; the spec's own decision D13; the form of the latency is log 5). -/
def Obligations.RequestIsHonoured : Prop :=
  ∀ (p : IrqPolicy) (run : Nat → State), (∀ k, (run k).hostTurn.cycle p = .next (run (k + 1))) →
    ∀ n, ∃ m, n ≤ m ∧ m ≤ n + Config.irqLatency (run n).episode + 1 ∧
      ((run m).irqRequest = false ∨ (run m).inIrq = true)

/-! ### Devices and the host -/

/-- A typed character: `data` is the code, bit 6 of `ctrl` is 1, bit 7 and the rest of the machine are as before, whether or
not the last character was read (R251; the spec's own decision D15). -/
def Obligations.TypedCharacter : Prop :=
  ∀ (s : State) (c : Byte), (s.hostAct (.typeChar c)).data = c ∧
    (∀ j, j < 8 → (s.hostAct (.typeChar c)).ctrl.getLsbD j = (decide (j = 6) || s.ctrl.getLsbD j)) ∧
    SameDevices { s with data := c, ctrl := (s.hostAct (.typeChar c)).ctrl } (s.hostAct (.typeChar c)) ∧
    (s.hostAct (.typeChar c)).regs = s.regs ∧ (s.hostAct (.typeChar c)).pc = s.pc ∧
    (s.hostAct (.typeChar c)).mem = s.mem ∧ SameControl s (s.hostAct (.typeChar c))

/-- A pin brought to a level, pin by pin: an input pin takes it, and an edge sets its event bit whatever `ien` is; an output
pin, a level that repeats and every other pin change nothing (R261; the spec's own decision D17). -/
def Obligations.PinChange : Prop :=
  ∀ (s : State) (pin : Fin 32) (level : Bool) (j : Nat), j < 32 →
    (s.hostAct (.setPin pin level)).val.getLsbD j =
      (if j = pin.val ∧ s.dir.getLsbD j = true then level else s.val.getLsbD j) ∧
    (s.hostAct (.setPin pin level)).rev.getLsbD j =
      (s.rev.getLsbD j || (decide (j = pin.val) && s.dir.getLsbD j && level && !s.val.getLsbD j)) ∧
    (s.hostAct (.setPin pin level)).fev.getLsbD j =
      (s.fev.getLsbD j || (decide (j = pin.val) && s.dir.getLsbD j && !level && s.val.getLsbD j)) ∧
    (s.hostAct (.setPin pin level)).dir = s.dir ∧ (s.hostAct (.setPin pin level)).ien = s.ien ∧
    (s.hostAct (.setPin pin level)).ctrl = s.ctrl ∧ (s.hostAct (.setPin pin level)).data = s.data

/-- Whatever the host does at a boundary, it writes no register, no memory and no output: only the text input, the levels of
input pins and event bits it sets (R270; the spec's own decision D27). -/
def Obligations.HostTouchesOnlyInputs : Prop :=
  ∀ s : State, s.hostTurn.regs = s.regs ∧ s.hostTurn.pc = s.pc ∧ s.hostTurn.mepc = s.mepc ∧
    s.hostTurn.inIrq = s.inIrq ∧ s.hostTurn.mem = s.mem ∧ s.hostTurn.textOut = s.textOut ∧ s.hostTurn.dir = s.dir ∧
    s.hostTurn.ien = s.ien ∧ s.hostTurn.outputPins = s.outputPins ∧
    s.rev &&& s.hostTurn.rev = s.rev ∧ s.fev &&& s.hostTurn.fev = s.fev ∧
    s.ctrl &&& s.hostTurn.ctrl = s.ctrl ∧ (s.irqRequest = true → s.hostTurn.irqRequest = true)

/-- The hardware never clears an event bit by itself: along a step that runs no store every event bit that is up stays up
(R265). -/
def Obligations.EventBitsAreSticky : Prop :=
  ∀ (s u : State) (w : Word) (i : Instr), s.fetch = .ok w → decode w = .ok i → i.isStore = false → step s = .next u →
    s.rev &&& u.rev = s.rev ∧ s.fev &&& u.fev = s.fev

/-- The text output stream only grows, by at most one byte a step (R47, R257). -/
def Obligations.TextOutputOnlyGrows : Prop :=
  ∀ s u : State, step s = .next u → u.textOut = s.textOut ∨ ∃ b, u.textOut = s.textOut ++ [b]

/-- The address map: each address lies in the region of the map's table, or in none (R60). -/
def Obligations.AddressMap : Prop :=
  ∀ a : Word,
    (regionOf a = some .ram ↔ a.toNat ≤ 0xBFF) ∧
    (regionOf a = some .bitmapRam ↔ 0xC00 ≤ a.toNat ∧ a.toNat ≤ 0xFFF) ∧
    (regionOf a = some .textInput ↔ a.toNat = 0xB0000000 ∨ a.toNat = 0xB0000001) ∧
    (regionOf a = some .textOutput ↔ a.toNat = 0xC0000000) ∧
    (regionOf a = some .gpio ↔ 0xD0000000 ≤ a.toNat ∧ a.toNat ≤ 0xD0000013) ∧
    (regionOf a = none ↔ (0xFFF < a.toNat ∧ a.toNat < 0xB0000000) ∨ (0xB0000001 < a.toNat ∧ a.toNat < 0xC0000000) ∨
      (0xC0000000 < a.toNat ∧ a.toNat < 0xD0000000) ∨ 0xD0000013 < a.toNat)

/-- The bitmap is in raster order: the pixel at column `x`, row `y` is the byte at `C00 + 32*y + x`, and each byte of the
bitmap RAM is exactly one pixel (R268). -/
def Obligations.BitmapRasterOrder : Prop :=
  (∀ (s : State) (x y : Fin 32), s.pixel x y = s.mem.read (0xC00 + 32 * y.val + x.val)) ∧
  (∀ a : Word, regionOf a = some .bitmapRam → ∃! xy : Fin 32 × Fin 32, pixelAddr xy.1 xy.2 = a.toNat)

/-! ### Memory, reset, invariants, the end of a run -/

/-- The reset state, whatever the launch leaves open: `pc`, `x[0]`, `in_irq`, the devices' enables and flags, the empty
stream, all pins inputs, no request (R35, R48, R290; the values besides `pc`, `dir` and `ien` are the spec's own decisions
D12, D18). Every launch input is what it says: the registers, `mepc`, `data`, `val`; each byte of RAM and bitmap RAM, which
is the last byte the image names for its address, else the launch's own byte (R45, D18; that image bytes outside memory
are dropped and that the last of several wins are the model's choices, log 3; that an address outside memory reads blank is
log 2); and the model's own fields (log 4 to log 8). -/
def Obligations.ResetForEveryLaunch : Prop :=
  ∀ l : Launch, (State.launch l).pc = 0#32 ∧ (State.launch l).x 0#5 = 0#32 ∧ (State.launch l).inIrq = false ∧
    (State.launch l).ctrl.getLsbD 7 = false ∧ (State.launch l).ctrl.getLsbD 6 = false ∧
    (State.launch l).textOut = [] ∧ (State.launch l).dir = 0xFFFFFFFF#32 ∧ (State.launch l).ien = 0#32 ∧
    (State.launch l).rev = 0#32 ∧ (State.launch l).fev = 0#32 ∧ (State.launch l).irqRequest = false ∧
    (∀ r : RegIdx, r ≠ 0#5 → (State.launch l).x r = l.regs[r.toNat]'r.isLt) ∧
    (State.launch l).mepc = l.mepc ∧ (State.launch l).data = l.data ∧ (State.launch l).val = l.val ∧
    (∀ (a : Nat) (h : a < 0x1000), (State.launch l).mem.read a = (lastNamed l.image a).getD (l.ram[a]'h)) ∧
    (∀ a : Nat, 0x1000 ≤ a → (State.launch l).mem.read a = blankByte) ∧
    (∀ j, j < 6 → (State.launch l).ctrl.getLsbD j = l.ctrlSpare.getLsbD j) ∧
    (State.launch l).textReads = l.textReads ∧ (State.launch l).changes = l.changes ∧
    (State.launch l).waited = 0 ∧ (State.launch l).episode = l.episode ∧ (State.launch l).inputs = l.inputs

/-- The invariant holds after every reset, whatever the launch leaves open (R32, R35, R290). Its clauses on the form of
memory (log 2), on memory listing RAM only, for which the loader drops image bytes outside it (log 3), and on the waiting
count (log 5) are the model's choices. -/
def Obligations.InvariantAfterEveryReset : Prop := ∀ l : Launch, (State.launch l).Inv

/-- The invariant holds at the reset state with the launch values the model names (R290; log 1, log 2, log 4). -/
def Obligations.InvariantAtReset : Prop := State.reset.Inv

/-- EVERY STEP KEEPS THE INVARIANT: memory canonical and within RAM, `x[0]` zero, `pc` a multiple of 4, waiting only for a
request (R32, R35, R60, R240; the form of memory is log 2, the waiting count log 5). -/
def Obligations.StepKeepsInvariant : Prop :=
  ∀ s u : State, s.Inv → step s = .next u → u.Inv

/-- `pc` is 0 at reset, the first instruction is the word at address 0, and `pc` is a multiple of 4 after every reset and
every step (R35). That the fetched word is the four bytes in little-endian order is the spec's own decision D24 (R65). -/
def Obligations.PcStartsAtZeroAndStaysAligned : Prop :=
  (∀ l : Launch, (State.launch l).pc = 0#32 ∧
    (State.launch l).fetch = .ok (wordOfBytes ((State.launch l).mem.read 0) ((State.launch l).mem.read 1)
      ((State.launch l).mem.read 2) ((State.launch l).mem.read 3))) ∧
  (∀ s t : State, (∃ l, Reaches (State.launch l) s) ∨ step t = .next s → s.pc.toNat % 4 = 0)

/-- `mepc` is a multiple of 4 from the first interrupt on: a step that changes it makes it one, and one that finds it so
keeps it so (R39; the spec's own derivation). -/
def Obligations.MepcStaysAligned : Prop :=
  ∀ s u : State, step s = .next u → u.mepc = s.mepc ∨ u.mepc.toNat % 4 = 0

/-- A terminal state is final: with nothing left for the host to do, every step leaves the whole state as it is
(R297; the spec's own decision D22). -/
def Obligations.TerminalStateIsFinal : Prop :=
  ∀ s : State, s.Inv → s.Terminal → s.inputs = [] → step s = .next s ∧ ∀ n, SafeFor n s

/-- The boundary with a request up outside a handler, under EVERY policy: either the run goes on where the instruction left
it, or the interrupt is entered (`mepc` the next address, `pc` 4, `in_irq` 1); nothing else changes but the model's two
counts of waiting (R240, R241, R242, R243; the spec's own decisions D11, D12, D13; the counts are log 5). -/
def Obligations.EntersOrGoesOn : Prop :=
  ∀ (p : IrqPolicy) (s t : State), s.runInstr = .next t → t.irqRequest = true → t.inIrq = false →
    ∃ u, s.cycle p = .next u ∧
      (u = { t with waited := u.waited, episode := u.episode } ∨
       u = { t with mepc := t.pc, pc := 4#32, inIrq := true, waited := u.waited, episode := u.episode })
end

