-- ==== Sys2Proof/Laws/Decode.lean ====
section
/-! SUPPORT. The fields of an encoded word, format by format: every format is format R with its immediate cut into the
places of the register and function fields (spec/30_encoding.md R101, R103). -/

namespace Sys2Proof

/-- The bits of a format R word. -/
theorem getLsbD_encR (f7 : BitVec 7) (rs2 rs1 : RegIdx) (f3 : BitVec 3) (rd : RegIdx) (op : BitVec 7) (i : Nat) :
    (encR f7 rs2 rs1 f3 rd op).getLsbD i =
      if i < 7 then op.getLsbD i else if i < 12 then rd.getLsbD (i - 7) else if i < 15 then f3.getLsbD (i - 12)
      else if i < 20 then rs1.getLsbD (i - 15) else if i < 25 then rs2.getLsbD (i - 20) else f7.getLsbD (i - 25) := by
  change BitVec.getLsbD (f7 ++ rs2 ++ rs1 ++ f3 ++ rd ++ op : BitVec (7 + 5 + 5 + 3 + 5 + 7)) i = _
  simp only [BitVec.getLsbD_append]
  repeat' split
  all_goals first | rfl | omega

section
variable (f7 : BitVec 7) (rs2 rs1 : RegIdx) (f3 : BitVec 3) (rd : RegIdx) (op : BitVec 7)

@[simp] theorem opcodeOf_encR : opcodeOf (encR f7 rs2 rs1 f3 rd op) = op := by
  apply BitVec.eq_of_getLsbD_eq; intro i hi
  simp only [opcodeOf, BitVec.getLsbD_extractLsb', getLsbD_encR]
  interval_cases i <;> simp

@[simp] theorem rdOf_encR : rdOf (encR f7 rs2 rs1 f3 rd op) = rd := by
  apply BitVec.eq_of_getLsbD_eq; intro i hi
  simp only [rdOf, BitVec.getLsbD_extractLsb', getLsbD_encR]
  interval_cases i <;> simp

@[simp] theorem funct3Of_encR : funct3Of (encR f7 rs2 rs1 f3 rd op) = f3 := by
  apply BitVec.eq_of_getLsbD_eq; intro i hi
  simp only [funct3Of, BitVec.getLsbD_extractLsb', getLsbD_encR]
  interval_cases i <;> simp

@[simp] theorem rs1Of_encR : rs1Of (encR f7 rs2 rs1 f3 rd op) = rs1 := by
  apply BitVec.eq_of_getLsbD_eq; intro i hi
  simp only [rs1Of, BitVec.getLsbD_extractLsb', getLsbD_encR]
  interval_cases i <;> simp

@[simp] theorem rs2Of_encR : rs2Of (encR f7 rs2 rs1 f3 rd op) = rs2 := by
  apply BitVec.eq_of_getLsbD_eq; intro i hi
  simp only [rs2Of, BitVec.getLsbD_extractLsb', getLsbD_encR]
  interval_cases i <;> simp

@[simp] theorem funct7Of_encR : funct7Of (encR f7 rs2 rs1 f3 rd op) = f7 := by
  apply BitVec.eq_of_getLsbD_eq; intro i hi
  simp only [funct7Of, BitVec.getLsbD_extractLsb', getLsbD_encR]
  interval_cases i <;> simp

end

/-- A word is its six fields. -/
theorem encR_fields (w : Word) :
    encR (funct7Of w) (rs2Of w) (rs1Of w) (funct3Of w) (rdOf w) (opcodeOf w) = w := by
  apply BitVec.eq_of_getLsbD_eq; intro i hi
  rw [getLsbD_encR]
  simp only [funct7Of, rs2Of, rs1Of, funct3Of, rdOf, opcodeOf, BitVec.getLsbD_extractLsb']
  interval_cases i <;> simp

/-- Format I as format R. -/
theorem encI_eq_encR (imm : BitVec 12) (rs1 : RegIdx) (f3 : BitVec 3) (rd : RegIdx) (op : BitVec 7) :
    encI imm rs1 f3 rd op = encR (imm.extractLsb' 5 7) (imm.extractLsb' 0 5) rs1 f3 rd op := by
  apply BitVec.eq_of_getLsbD_eq; intro i hi
  rw [getLsbD_encR]
  change BitVec.getLsbD (imm ++ rs1 ++ f3 ++ rd ++ op : BitVec (12 + 5 + 3 + 5 + 7)) i = _
  simp only [BitVec.getLsbD_append, BitVec.getLsbD_extractLsb']
  interval_cases i <;> simp

/-- Format S as format R. -/
theorem encS_eq_encR (imm : BitVec 12) (rs2 rs1 : RegIdx) (f3 : BitVec 3) (op : BitVec 7) :
    encS imm rs2 rs1 f3 op = encR (imm.extractLsb' 5 7) rs2 rs1 f3 (imm.extractLsb' 0 5) op := rfl

/-- Format B as format R. -/
theorem encB_eq_encR (off : BitVec 13) (rs2 rs1 : RegIdx) (f3 : BitVec 3) (op : BitVec 7) :
    encB off rs2 rs1 f3 op =
      encR (off.extractLsb' 12 1 ++ off.extractLsb' 5 6) rs2 rs1 f3 (off.extractLsb' 1 4 ++ off.extractLsb' 11 1) op := by
  apply BitVec.eq_of_getLsbD_eq; intro i hi
  rw [getLsbD_encR]
  change BitVec.getLsbD (off.extractLsb' 12 1 ++ off.extractLsb' 5 6 ++ rs2 ++ rs1 ++ f3 ++ off.extractLsb' 1 4
    ++ off.extractLsb' 11 1 ++ op : BitVec (1 + 6 + 5 + 5 + 3 + 4 + 1 + 7)) i = _
  simp only [BitVec.getLsbD_append, BitVec.getLsbD_extractLsb']
  interval_cases i <;> simp

/-- Format U as format R. -/
theorem encU_eq_encR (imm : BitVec 20) (rd : RegIdx) (op : BitVec 7) :
    encU imm rd op =
      encR (imm.extractLsb' 13 7) (imm.extractLsb' 8 5) (imm.extractLsb' 3 5) (imm.extractLsb' 0 3) rd op := by
  apply BitVec.eq_of_getLsbD_eq; intro i hi
  rw [getLsbD_encR]
  change BitVec.getLsbD (imm ++ rd ++ op : BitVec (20 + 5 + 7)) i = _
  simp only [BitVec.getLsbD_append, BitVec.getLsbD_extractLsb']
  interval_cases i <;> simp

/-- Format J as format R. -/
theorem encJ_eq_encR (off : BitVec 21) (rd : RegIdx) (op : BitVec 7) :
    encJ off rd op =
      encR (off.extractLsb' 20 1 ++ off.extractLsb' 5 6) (off.extractLsb' 1 4 ++ off.extractLsb' 11 1)
        (off.extractLsb' 15 5) (off.extractLsb' 12 3) rd op := by
  apply BitVec.eq_of_getLsbD_eq; intro i hi
  rw [getLsbD_encR]
  change BitVec.getLsbD (off.extractLsb' 20 1 ++ off.extractLsb' 1 10 ++ off.extractLsb' 11 1 ++ off.extractLsb' 12 8
    ++ rd ++ op : BitVec (1 + 10 + 1 + 8 + 5 + 7)) i = _
  simp only [BitVec.getLsbD_append, BitVec.getLsbD_extractLsb']
  interval_cases i <;> simp

/-! ### The fields of an encoded word of each other format -/

@[simp] theorem opcodeOf_encI (imm : BitVec 12) (rs1 : RegIdx) (f3 : BitVec 3) (rd : RegIdx) (op : BitVec 7) : opcodeOf (encI imm rs1 f3 rd op) = op := by
  rw [encI_eq_encR]; exact opcodeOf_encR _ _ _ _ _ _
@[simp] theorem rdOf_encI (imm : BitVec 12) (rs1 : RegIdx) (f3 : BitVec 3) (rd : RegIdx) (op : BitVec 7) : rdOf (encI imm rs1 f3 rd op) = rd := by
  rw [encI_eq_encR]; exact rdOf_encR _ _ _ _ _ _
@[simp] theorem funct3Of_encI (imm : BitVec 12) (rs1 : RegIdx) (f3 : BitVec 3) (rd : RegIdx) (op : BitVec 7) : funct3Of (encI imm rs1 f3 rd op) = f3 := by
  rw [encI_eq_encR]; exact funct3Of_encR _ _ _ _ _ _
@[simp] theorem rs1Of_encI (imm : BitVec 12) (rs1 : RegIdx) (f3 : BitVec 3) (rd : RegIdx) (op : BitVec 7) : rs1Of (encI imm rs1 f3 rd op) = rs1 := by
  rw [encI_eq_encR]; exact rs1Of_encR _ _ _ _ _ _
@[simp] theorem opcodeOf_encS (imm : BitVec 12) (rs2 rs1 : RegIdx) (f3 : BitVec 3) (op : BitVec 7) : opcodeOf (encS imm rs2 rs1 f3 op) = op := by
  rw [encS_eq_encR]; exact opcodeOf_encR _ _ _ _ _ _
@[simp] theorem rs2Of_encS (imm : BitVec 12) (rs2 rs1 : RegIdx) (f3 : BitVec 3) (op : BitVec 7) : rs2Of (encS imm rs2 rs1 f3 op) = rs2 := by
  rw [encS_eq_encR]; exact rs2Of_encR _ _ _ _ _ _
@[simp] theorem funct3Of_encS (imm : BitVec 12) (rs2 rs1 : RegIdx) (f3 : BitVec 3) (op : BitVec 7) : funct3Of (encS imm rs2 rs1 f3 op) = f3 := by
  rw [encS_eq_encR]; exact funct3Of_encR _ _ _ _ _ _
@[simp] theorem rs1Of_encS (imm : BitVec 12) (rs2 rs1 : RegIdx) (f3 : BitVec 3) (op : BitVec 7) : rs1Of (encS imm rs2 rs1 f3 op) = rs1 := by
  rw [encS_eq_encR]; exact rs1Of_encR _ _ _ _ _ _
@[simp] theorem opcodeOf_encB (off : BitVec 13) (rs2 rs1 : RegIdx) (f3 : BitVec 3) (op : BitVec 7) : opcodeOf (encB off rs2 rs1 f3 op) = op := by
  rw [encB_eq_encR]; exact opcodeOf_encR _ _ _ _ _ _
@[simp] theorem rs2Of_encB (off : BitVec 13) (rs2 rs1 : RegIdx) (f3 : BitVec 3) (op : BitVec 7) : rs2Of (encB off rs2 rs1 f3 op) = rs2 := by
  rw [encB_eq_encR]; exact rs2Of_encR _ _ _ _ _ _
@[simp] theorem funct3Of_encB (off : BitVec 13) (rs2 rs1 : RegIdx) (f3 : BitVec 3) (op : BitVec 7) : funct3Of (encB off rs2 rs1 f3 op) = f3 := by
  rw [encB_eq_encR]; exact funct3Of_encR _ _ _ _ _ _
@[simp] theorem rs1Of_encB (off : BitVec 13) (rs2 rs1 : RegIdx) (f3 : BitVec 3) (op : BitVec 7) : rs1Of (encB off rs2 rs1 f3 op) = rs1 := by
  rw [encB_eq_encR]; exact rs1Of_encR _ _ _ _ _ _
@[simp] theorem opcodeOf_encU (imm : BitVec 20) (rd : RegIdx) (op : BitVec 7) : opcodeOf (encU imm rd op) = op := by
  rw [encU_eq_encR]; exact opcodeOf_encR _ _ _ _ _ _
@[simp] theorem opcodeOf_encJ (off : BitVec 21) (rd : RegIdx) (op : BitVec 7) : opcodeOf (encJ off rd op) = op := by
  rw [encJ_eq_encR]; exact opcodeOf_encR _ _ _ _ _ _
@[simp] theorem rdOf_encU (imm : BitVec 20) (rd : RegIdx) (op : BitVec 7) : rdOf (encU imm rd op) = rd := by
  rw [encU_eq_encR]; exact rdOf_encR _ _ _ _ _ _
@[simp] theorem rdOf_encJ (off : BitVec 21) (rd : RegIdx) (op : BitVec 7) : rdOf (encJ off rd op) = rd := by
  rw [encJ_eq_encR]; exact rdOf_encR _ _ _ _ _ _

/-- Decoding sees the word's compared fields first: the row found depends on them alone (R111). -/
theorem decode_of_fields {w : Word} {op : BitVec 7} {f3 : BitVec 3} {f7 : BitVec 7} {r2 : BitVec 5}
    (ho : opcodeOf w = op) (h3 : funct3Of w = f3) (h7 : funct7Of w = f7) (h2 : rs2Of w = r2) :
    decode w = match decodeTable.find? (fun r => r.opcode == op && fieldMatches r.funct3 f3 && fieldMatches r.funct7 f7
        && fieldMatches r.rs2 r2) with
      | some r => .ok (r.build w)
      | none => .error (.noRow w) := by
  subst ho h3 h7 h2; rfl

/-- The immediate of an encoded format I word is the one encoded (R104). -/
@[simp] theorem fieldI_encI (imm : BitVec 12) (rs1 : RegIdx) (f3 : BitVec 3) (rd : RegIdx) (op : BitVec 7) :
    fieldI (encI imm rs1 f3 rd op) = imm := by
  rw [encI_eq_encR]
  apply BitVec.eq_of_getLsbD_eq; intro i hi
  simp only [fieldI, BitVec.getLsbD_extractLsb', getLsbD_encR]
  interval_cases i <;> simp

/-- The immediate of an encoded format S word is the one encoded (R105). -/
@[simp] theorem fieldS_encS (imm : BitVec 12) (rs2 rs1 : RegIdx) (f3 : BitVec 3) (op : BitVec 7) :
    fieldS (encS imm rs2 rs1 f3 op) = imm := by
  rw [encS_eq_encR]
  apply BitVec.eq_of_getLsbD_eq; intro i hi
  simp only [fieldS, BitVec.getLsbD_append, BitVec.getLsbD_extractLsb', getLsbD_encR]
  interval_cases i <;> simp

/-- The offset of an encoded format B word is the one encoded, if it is even (R106). -/
theorem fieldB_encB (off : BitVec 13) (rs2 rs1 : RegIdx) (f3 : BitVec 3) (op : BitVec 7) (h : evenOffset off = true) :
    fieldB (encB off rs2 rs1 f3 op) = off := by
  rw [encB_eq_encR]
  apply BitVec.eq_of_getLsbD_eq; intro i hi
  have h0 : off.getLsbD 0 = false := by simpa [evenOffset] using h
  change BitVec.getLsbD (_ ++ _ ++ _ ++ _ ++ 0#1 : BitVec (1 + 1 + 6 + 4 + 1)) i = _
  simp only [BitVec.getLsbD_append, BitVec.getLsbD_extractLsb', getLsbD_encR]
  interval_cases i <;> simp_all

/-- The immediate of an encoded format U word is the one encoded (R107). -/
@[simp] theorem fieldU_encU (imm : BitVec 20) (rd : RegIdx) (op : BitVec 7) : fieldU (encU imm rd op) = imm := by
  rw [encU_eq_encR]
  apply BitVec.eq_of_getLsbD_eq; intro i hi
  simp only [fieldU, BitVec.getLsbD_extractLsb', getLsbD_encR]
  interval_cases i <;> simp

/-- The offset of an encoded format J word is the one encoded, if it is even (R108). -/
theorem fieldJ_encJ (off : BitVec 21) (rd : RegIdx) (op : BitVec 7) (h : evenOffset off = true) :
    fieldJ (encJ off rd op) = off := by
  rw [encJ_eq_encR]
  apply BitVec.eq_of_getLsbD_eq; intro i hi
  have h0 : off.getLsbD 0 = false := by simpa [evenOffset] using h
  change BitVec.getLsbD (_ ++ _ ++ _ ++ _ ++ 0#1 : BitVec (1 + 8 + 1 + 10 + 1)) i = _
  simp only [BitVec.getLsbD_append, BitVec.getLsbD_extractLsb', getLsbD_encR]
  interval_cases i <;> simp_all

/-! ### A word is its fields, in each format (R101) -/

theorem encI_fields (w : Word) : encI (fieldI w) (rs1Of w) (funct3Of w) (rdOf w) (opcodeOf w) = w := by
  rw [encI_eq_encR]
  conv_rhs => rw [← encR_fields w]
  congr 1 <;> (apply BitVec.eq_of_getLsbD_eq; intro i hi; simp only [fieldI, funct7Of, rs2Of, BitVec.getLsbD_extractLsb']; interval_cases i <;> simp)

theorem encS_fields (w : Word) : encS (fieldS w) (rs2Of w) (rs1Of w) (funct3Of w) (opcodeOf w) = w := by
  rw [encS_eq_encR]
  conv_rhs => rw [← encR_fields w]
  congr 1 <;> (apply BitVec.eq_of_getLsbD_eq; intro i hi
               simp only [fieldS, funct7Of, rdOf, BitVec.getLsbD_append, BitVec.getLsbD_extractLsb']; interval_cases i <;> simp)

theorem encB_fields (w : Word) : encB (fieldB w) (rs2Of w) (rs1Of w) (funct3Of w) (opcodeOf w) = w := by
  rw [encB_eq_encR]
  conv_rhs => rw [← encR_fields w]
  congr 1 <;> (apply BitVec.eq_of_getLsbD_eq; intro i hi
               simp only [fieldB, funct7Of, rdOf, BitVec.getLsbD_append, BitVec.getLsbD_extractLsb']; interval_cases i <;> simp)

theorem encU_fields (w : Word) : encU (fieldU w) (rdOf w) (opcodeOf w) = w := by
  rw [encU_eq_encR]
  conv_rhs => rw [← encR_fields w]
  congr 1 <;> (apply BitVec.eq_of_getLsbD_eq; intro i hi
               simp only [fieldU, funct7Of, rs2Of, rs1Of, funct3Of, BitVec.getLsbD_extractLsb']; interval_cases i <;> simp)

theorem encJ_fields (w : Word) : encJ (fieldJ w) (rdOf w) (opcodeOf w) = w := by
  rw [encJ_eq_encR]
  conv_rhs => rw [← encR_fields w]
  congr 1 <;> (apply BitVec.eq_of_getLsbD_eq; intro i hi
               simp only [fieldJ, funct7Of, rs2Of, rs1Of, funct3Of, BitVec.getLsbD_append, BitVec.getLsbD_extractLsb']; interval_cases i <;> simp)

/-- The offsets read from a word are even (R106, R108). -/
theorem evenOffset_field (w : Word) : evenOffset (fieldB w) = true ∧ evenOffset (fieldJ w) = true := by
  constructor <;> simp only [evenOffset, fieldB, fieldJ, BitVec.getLsbD_append] <;> simp

/-- The four bytes of a word give the word back (20_memory.md R64, R65). -/
theorem wordOfBytes_byteOfWord (w : Word) :
    wordOfBytes (byteOfWord w 0) (byteOfWord w 1) (byteOfWord w 2) (byteOfWord w 3) = w := by
  apply BitVec.eq_of_getLsbD_eq; intro i hi
  change BitVec.getLsbD (_ ++ _ ++ _ ++ _ : BitVec (8 + 8 + 8 + 8)) i = _
  simp only [BitVec.getLsbD_append, byteOfWord, BitVec.getLsbD_extractLsb']
  interval_cases i <;> simp

/-- Decoding four bytes is decoding the word they are (20_memory.md R65). -/
theorem decodeBytes_four (b0 b1 b2 b3 : Byte) (rest : List Byte) (i : Instr) :
    decodeBytes (b0 :: b1 :: b2 :: b3 :: rest) = .ok (i, rest) ↔ decode (wordOfBytes b0 b1 b2 b3) = .ok i := by
  simp only [decodeBytes]
  cases decode (wordOfBytes b0 b1 b2 b3) <;> simp

/-- What a decoded word can be: the instruction some row of the decode table that it matches builds (R111). -/
theorem decode_ok {w : Word} {i : Instr} (h : decode w = .ok i) :
    ∃ r ∈ decodeTable, r.isMatch w = true ∧ i = r.build w := by
  unfold decode at h
  split at h
  · rename_i r hr
    exact ⟨r, List.mem_of_find?_eq_some hr, by simpa using List.find?_some hr, by simpa using h.symm⟩
  · cases h

/-- A word that is not decoded matches no row of the decode table (R120). -/
theorem decode_error {w : Word} {e : DecodeError} (h : decode w = .error e) :
    e = .noRow w ∧ ∀ r ∈ decodeTable, r.isMatch w = false := by
  unfold decode at h
  split at h
  · cases h
  · rename_i hn
    refine ⟨by simpa using h.symm, fun r hr => ?_⟩
    simpa using List.find?_eq_none.mp hn r hr

end Sys2Proof
end

