-- ==== Sys2Proof/Laws/Memory.lean ====
section
/-! SUPPORT. The laws of memory: the canonical form is kept, a read after a write, equal reads are equal memories. -/

namespace Sys2Proof.Machine

open Sys2Proof

/-- Below the first listed address everything is blank. -/
theorem Memory.read_of_lt {lo : Nat} {m : Memory} (h : Memory.wfFrom lo m = true) {a : Nat} (ha : a < lo) :
    m.read a = blankByte := by
  induction m generalizing lo with
  | nil => rfl
  | cons c m ih =>
    obtain ⟨k, v⟩ := c
    simp only [Memory.wfFrom, Bool.and_eq_true, decide_eq_true_eq] at h
    have hk : k ≠ a := by omega
    simp only [Memory.read, hk, if_false]
    exact ih h.2 (by omega)

theorem Memory.wfFrom_mono {lo lo' : Nat} {m : Memory} (h : Memory.wfFrom lo m = true) (hl : lo' ≤ lo) :
    Memory.wfFrom lo' m = true := by
  cases m with
  | nil => rfl
  | cons c m =>
    obtain ⟨k, v⟩ := c
    simp only [Memory.wfFrom, Bool.and_eq_true, decide_eq_true_eq] at h ⊢
    exact ⟨⟨by omega, h.1.2⟩, h.2⟩

/-- A byte write keeps the canonical form from any address it does not go below. -/
theorem Memory.write_wfFrom {lo : Nat} {m : Memory} (h : Memory.wfFrom lo m = true) {a : Nat} (ha : lo ≤ a) (b : Byte) :
    Memory.wfFrom lo (m.write a b) = true := by
  induction m generalizing lo with
  | nil =>
    unfold Memory.write
    split
    · rfl
    · rename_i hb
      simp [Memory.wfFrom, ha, hb]
  | cons c m ih =>
    obtain ⟨k, v⟩ := c
    have h' := h
    simp only [Memory.wfFrom, Bool.and_eq_true, decide_eq_true_eq, bne_iff_ne] at h'
    obtain ⟨⟨hk, hv⟩, hm⟩ := h'
    unfold Memory.write
    split
    · split
      · exact h
      · rename_i hak hb
        simp only [Memory.wfFrom, Bool.and_eq_true, decide_eq_true_eq, bne_iff_ne]
        exact ⟨⟨ha, hb⟩, ⟨by omega, hv⟩, hm⟩
    · split
      · split
        · exact Memory.wfFrom_mono hm (by omega)
        · rename_i h1 h2 hb
          simp only [Memory.wfFrom, Bool.and_eq_true, decide_eq_true_eq, bne_iff_ne]
          exact ⟨⟨ha, hb⟩, Memory.wfFrom_mono hm (by omega)⟩
      · simp only [Memory.wfFrom, Bool.and_eq_true, decide_eq_true_eq, bne_iff_ne]
        exact ⟨⟨hk, hv⟩, ih hm (by omega)⟩

/-- A byte write keeps the canonical form. -/
theorem Memory.write_wf {m : Memory} (h : m.wf = true) (a : Nat) (b : Byte) : (m.write a b).wf = true :=
  Memory.write_wfFrom h (Nat.zero_le a) b

/-- A byte read after a byte write: the byte written at that address, the old byte everywhere else (20_memory.md R71). -/
theorem Memory.read_write {m : Memory} (h : m.wf = true) (a b : Nat) (v : Byte) :
    (m.write a v).read b = if b = a then v else m.read b := by
  suffices H : ∀ lo, Memory.wfFrom lo m = true → (m.write a v).read b = if b = a then v else m.read b from H 0 h
  clear h
  intro lo h
  induction m generalizing lo with
  | nil =>
    unfold Memory.write
    by_cases hb : b = a
    · split
      · simp_all [Memory.read]
      · simp [Memory.read, hb]
    · have hab : a ≠ b := fun h => hb h.symm
      split <;> simp [Memory.read, hab]
  | cons c m ih =>
    obtain ⟨k, w⟩ := c
    have h' := h
    simp only [Memory.wfFrom, Bool.and_eq_true, decide_eq_true_eq, bne_iff_ne] at h'
    obtain ⟨⟨hk, hw⟩, hm⟩ := h'
    have hlow := @Memory.read_of_lt (k + 1) m hm
    unfold Memory.write
    by_cases hb : b = a
    · subst hb
      split
      · split
        · have : k ≠ b := by omega
          simp_all [Memory.read, hlow (a := b) (by omega)]
        · simp [Memory.read]
      · split
        · split
          · simp_all
          · simp [Memory.read]
        · have : k ≠ b := fun h => by simp_all
          simp only [Memory.read, this, if_false]
          rw [ih _ hm]
          simp
    · have hab : a ≠ b := fun h => hb h.symm
      split
      · split <;> simp [Memory.read, hab]
      · split
        · have hka : a = k := by assumption
          subst hka
          split <;> simp [Memory.read, hab]
        · simp only [Memory.read]
          rw [ih _ hm]
          simp [hb]

/-- Equal reads are equal memories: that is what the canonical form is for. -/
theorem Memory.wfFrom_ext {lo : Nat} {m n : Memory} (hm : Memory.wfFrom lo m = true) (hn : Memory.wfFrom lo n = true)
    (h : ∀ a, m.read a = n.read a) : m = n := by
  induction m generalizing lo n with
  | nil =>
    cases n with
    | nil => rfl
    | cons c n =>
      obtain ⟨k, v⟩ := c
      have := h k
      simp_all [Memory.read, Memory.wfFrom]
  | cons c m ih =>
    obtain ⟨k, v⟩ := c
    simp only [Memory.wfFrom, Bool.and_eq_true, decide_eq_true_eq, bne_iff_ne] at hm
    cases n with
    | nil =>
      have := h k
      simp_all [Memory.read]
    | cons c n =>
      obtain ⟨k', v'⟩ := c
      simp only [Memory.wfFrom, Bool.and_eq_true, decide_eq_true_eq, bne_iff_ne] at hn
      have hmlow := @Memory.read_of_lt (k + 1) m hm.2
      have hnlow := @Memory.read_of_lt (k' + 1) n hn.2
      have hkk : k = k' := by
        rcases Nat.lt_trichotomy k k' with hlt | heq | hgt
        · have := h k
          rw [show Memory.read ((k', v') :: n) k = blankByte by
            have hne : k' ≠ k := by omega
            simp only [Memory.read, hne, if_false]
            exact hnlow (by omega)] at this
          simp only [Memory.read, if_true] at this
          exact absurd this hm.1.2
        · exact heq
        · have := h k'
          rw [show Memory.read ((k, v) :: m) k' = blankByte by
            have hne : k ≠ k' := by omega
            simp only [Memory.read, hne, if_false]
            exact hmlow (by omega)] at this
          simp only [Memory.read, if_true] at this
          exact absurd this.symm hn.1.2
      subst hkk
      have hv : v = v' := by simpa [Memory.read] using h k
      subst hv
      congr 1
      refine ih hm.2 hn.2 fun a => ?_
      by_cases ha : k = a
      · subst ha
        rw [hmlow (by omega), hnlow (by omega)]
      · simpa [Memory.read, ha] using h a

/-! ### Wide accesses (20_memory.md R64) -/

/-- A wide write keeps the canonical form. -/
theorem Memory.writeLE_wf {m : Memory} (h : m.wf = true) (a n : Nat) (v : Word) : (m.writeLE a n v).wf = true := by
  induction n generalizing m a v with
  | zero => exact h
  | succ n ih => exact ih (Memory.write_wf h a _) _ _

theorem byteOfWord_zero (v : Word) : byteOfWord v 0 = v.setWidth 8 := by
  ext i hi
  simp [byteOfWord]

theorem byteOfWord_shift (v : Word) (i : Nat) : byteOfWord (v >>> 8) i = byteOfWord v (i + 1) := by
  ext j hj
  simp only [byteOfWord, BitVec.getElem_extractLsb', BitVec.getLsbD_ushiftRight]
  congr 1
  omega

/-- A byte read after a wide write: byte `b - a` of the value inside the `n` bytes, the old byte outside
(20_memory.md R71). -/
theorem Memory.read_writeLE {m : Memory} (h : m.wf = true) (a n b : Nat) (v : Word) :
    (m.writeLE a n v).read b = if a ≤ b ∧ b < a + n then byteOfWord v (b - a) else m.read b := by
  induction n generalizing m a v with
  | zero =>
    have : ¬(a ≤ b ∧ b < a + 0) := by omega
    simp only [Memory.writeLE, this, if_false]
  | succ n ih =>
    simp only [Memory.writeLE]
    rw [ih (Memory.write_wf h a _), Memory.read_write h]
    by_cases hb : b = a
    · subst hb
      simp [byteOfWord_zero]
    · by_cases hin : a + 1 ≤ b ∧ b < a + 1 + n
      · have h2 : a ≤ b ∧ b < a + (n + 1) := by omega
        simp only [hin, and_self, if_true, h2]
        rw [byteOfWord_shift]
        congr 1
        omega
      · have h2 : ¬(a ≤ b ∧ b < a + (n + 1)) := by omega
        simp only [hin, hb, h2, if_false]

/-- Wide reads agree where byte reads agree. -/
theorem Memory.readLE_congr {m m' : Memory} {a n : Nat} (h : ∀ b, a ≤ b → b < a + n → m'.read b = m.read b) :
    m'.readLE a n = m.readLE a n := by
  induction n generalizing a with
  | zero => rfl
  | succ n ih =>
    simp only [Memory.readLE]
    rw [h a (by omega) (by omega), ih fun b hb hb' => h b (by omega) (by omega)]

/-- The bits of a word put together from four bytes. -/
theorem getLsbD_wordOfBytes (b0 b1 b2 b3 : Byte) (i : Nat) :
    (wordOfBytes b0 b1 b2 b3).getLsbD i =
      if i < 8 then b0.getLsbD i else if i < 16 then b1.getLsbD (i - 8)
      else if i < 24 then b2.getLsbD (i - 16) else b3.getLsbD (i - 24) := by
  change BitVec.getLsbD (b3 ++ b2 ++ b1 ++ b0 : BitVec (8 + 8 + 8 + 8)) i = _
  simp only [BitVec.getLsbD_append]
  repeat' split
  all_goals first | rfl | omega

/-- The word at `a` is the four bytes joined little-endian (20_memory.md R64, R65). -/
theorem Memory.readLE_four (m : Memory) (a : Nat) :
    m.readLE a 4 = wordOfBytes (m.read a) (m.read (a + 1)) (m.read (a + 2)) (m.read (a + 3)) := by
  apply BitVec.eq_of_getLsbD_eq
  intro i hi
  rw [getLsbD_wordOfBytes]
  simp only [Memory.readLE, Nat.add_assoc, Nat.reduceAdd]
  interval_cases i <;> simp

/-! ### Every listed address is RAM (20_memory.md R60) -/

theorem Memory.write_inRam {m : Memory} (h : m.inRam = true) {a : Nat} (ha : a < Config.memSize) (b : Byte) :
    (m.write a b).inRam = true := by
  induction m with
  | nil =>
    unfold Memory.write
    split <;> simp [Memory.inRam, ha]
  | cons c m ih =>
    obtain ⟨k, v⟩ := c
    have h' : k < Config.memSize ∧ Memory.inRam m = true := by
      simpa [Memory.inRam] using h
    have cons_inRam : ∀ (j : Nat) (w : Byte) (n : Memory), j < Config.memSize → n.inRam = true →
        Memory.inRam ((j, w) :: n) = true := by
      intro j w n hj hn
      simp only [Memory.inRam, List.all_cons, Bool.and_eq_true, decide_eq_true_eq] at hn ⊢
      exact ⟨hj, hn⟩
    unfold Memory.write
    repeat' split
    · exact h
    · exact cons_inRam _ _ _ ha h
    · exact h'.2
    · exact cons_inRam _ _ _ ha h'.2
    · exact cons_inRam _ _ _ h'.1 (ih h'.2)

theorem Memory.writeLE_inRam {m : Memory} (h : m.inRam = true) {a n : Nat} (ha : a + n ≤ Config.memSize) (v : Word) :
    (m.writeLE a n v).inRam = true := by
  induction n generalizing m a v with
  | zero => exact h
  | succ n ih => exact ih (Memory.write_inRam h (by omega) _) (by omega) _

/-! ### Launch memory (10_state.md R45) -/

/-- Filled memory is in canonical form. -/
theorem Memory.fill_wfFrom (a : Nat) (bs : List Byte) : Memory.wfFrom a (Memory.fill a bs) = true := by
  induction bs generalizing a with
  | nil => rfl
  | cons b bs ih =>
    unfold Memory.fill
    split
    · exact Memory.wfFrom_mono (ih (a + 1)) (by omega)
    · rename_i hb
      simp [Memory.wfFrom, hb, ih]

theorem Memory.fill_wf (a : Nat) (bs : List Byte) : (Memory.fill a bs).wf = true :=
  Memory.wfFrom_mono (Memory.fill_wfFrom a bs) (Nat.zero_le a)

/-- Filled memory lists only the addresses filled. -/
theorem Memory.fill_inRam {a : Nat} {bs : List Byte} (h : a + bs.length ≤ Config.memSize) :
    (Memory.fill a bs).inRam = true := by
  induction bs generalizing a with
  | nil => rfl
  | cons b bs ih =>
    rw [List.length_cons] at h
    have hbs := ih (a := a + 1) (by omega)
    unfold Memory.fill
    split
    · exact hbs
    · simp only [Memory.inRam, List.all_cons, Bool.and_eq_true, decide_eq_true_eq] at hbs ⊢
      exact ⟨by omega, hbs⟩

/-- A byte of filled memory: the byte given for its address, blank before and after the bytes given. -/
theorem Memory.read_fill (a b : Nat) (bs : List Byte) :
    (Memory.fill a bs).read b = if a ≤ b then bs.getD (b - a) blankByte else blankByte := by
  by_cases hab : a ≤ b
  · rw [if_pos hab]
    induction bs generalizing a with
    | nil => rfl
    | cons c bs ih =>
      have low := Memory.read_of_lt (Memory.fill_wfFrom (a + 1) bs) (a := a) (by omega)
      rcases Nat.eq_or_lt_of_le hab with rfl | hlt
      · unfold Memory.fill
        split <;> simp_all [Memory.read]
      · have hsub : b - a = (b - (a + 1)) + 1 := by omega
        rw [hsub, List.getD_cons_succ, ← ih (a + 1) (by omega)]
        conv_lhs => unfold Memory.fill
        split
        · rfl
        · have hne : a ≠ b := by omega
          simp [Memory.read, hne]
  · rw [if_neg hab]
    exact Memory.read_of_lt (Memory.fill_wfFrom a bs) (by omega)

/-- Filling with blank bytes lists nothing. -/
@[simp] theorem Memory.fill_replicate_blank (a n : Nat) : Memory.fill a (List.replicate n blankByte) = [] := by
  induction n generalizing a with
  | zero => rfl
  | succ n ih => rw [List.replicate_succ, Memory.fill, if_pos rfl, ih]

@[simp] theorem Memory.load_nil (m : Memory) : m.load [] = m := rfl

/-- What the last cell of an image does when it is loaded (60_exceptions.md R270). -/
theorem Memory.load_concat (m : Memory) (image : List Host.Cell) (c : Host.Cell) :
    m.load (image ++ [c]) = if c.1 < Config.memSize then (m.load image).write c.1 c.2 else m.load image := by
  simp [Memory.load, List.foldl_append]

/-- Loading an image keeps memory canonical and in RAM. -/
theorem Memory.load_wf_inRam {m : Memory} (h : m.wf = true ∧ m.inRam = true) (image : List Host.Cell) :
    (m.load image).wf = true ∧ (m.load image).inRam = true := by
  induction image generalizing m with
  | nil => exact h
  | cons c image ih =>
    refine ih (m := if c.1 < Config.memSize then m.write c.1 c.2 else m) ?_
    split
    · exact ⟨Memory.write_wf h.1 _ _, Memory.write_inRam h.2 (by assumption) _⟩
    · exact h

end Sys2Proof.Machine
end

