-- ==== Sys2Proof/Laws/State.lean ====
section
/-! SUPPORT. What each named update of the state leaves alone and what it writes, one lemma per field, and the laws of the
register accessors. -/

namespace Sys2Proof.Machine

open Sys2Proof

/-! ### Reset -/

/-- The reset state is the launch with the named inputs (70_reset_and_hazards.md R290). -/
theorem State.reset_eq_launch : State.reset = State.launch Launch.named := by
  have h : (State.launch Launch.named).mem = [] := by
    simp only [State.launch, Launch.named, Vector.toList_replicate, Memory.fill_replicate_blank, Memory.load_nil]
  unfold State.reset
  rw [← h]

/-! ### `State.setX` -/

@[simp] theorem State.setX_pc (s : State) (r : RegIdx) (v : Word) : (s.setX r v).pc = s.pc := by unfold State.setX; split <;> rfl
@[simp] theorem State.setX_mepc (s : State) (r : RegIdx) (v : Word) : (s.setX r v).mepc = s.mepc := by unfold State.setX; split <;> rfl
@[simp] theorem State.setX_inIrq (s : State) (r : RegIdx) (v : Word) : (s.setX r v).inIrq = s.inIrq := by unfold State.setX; split <;> rfl
@[simp] theorem State.setX_mem (s : State) (r : RegIdx) (v : Word) : (s.setX r v).mem = s.mem := by unfold State.setX; split <;> rfl
@[simp] theorem State.setX_ctrl (s : State) (r : RegIdx) (v : Word) : (s.setX r v).ctrl = s.ctrl := by unfold State.setX; split <;> rfl
@[simp] theorem State.setX_data (s : State) (r : RegIdx) (v : Word) : (s.setX r v).data = s.data := by unfold State.setX; split <;> rfl
@[simp] theorem State.setX_textOut (s : State) (r : RegIdx) (v : Word) : (s.setX r v).textOut = s.textOut := by unfold State.setX; split <;> rfl
@[simp] theorem State.setX_dir (s : State) (r : RegIdx) (v : Word) : (s.setX r v).dir = s.dir := by unfold State.setX; split <;> rfl
@[simp] theorem State.setX_ien (s : State) (r : RegIdx) (v : Word) : (s.setX r v).ien = s.ien := by unfold State.setX; split <;> rfl
@[simp] theorem State.setX_rev (s : State) (r : RegIdx) (v : Word) : (s.setX r v).rev = s.rev := by unfold State.setX; split <;> rfl
@[simp] theorem State.setX_fev (s : State) (r : RegIdx) (v : Word) : (s.setX r v).fev = s.fev := by unfold State.setX; split <;> rfl
@[simp] theorem State.setX_val (s : State) (r : RegIdx) (v : Word) : (s.setX r v).val = s.val := by unfold State.setX; split <;> rfl
@[simp] theorem State.setX_textReads (s : State) (r : RegIdx) (v : Word) : (s.setX r v).textReads = s.textReads := by unfold State.setX; split <;> rfl
@[simp] theorem State.setX_changes (s : State) (r : RegIdx) (v : Word) : (s.setX r v).changes = s.changes := by unfold State.setX; split <;> rfl
@[simp] theorem State.setX_waited (s : State) (r : RegIdx) (v : Word) : (s.setX r v).waited = s.waited := by unfold State.setX; split <;> rfl
@[simp] theorem State.setX_episode (s : State) (r : RegIdx) (v : Word) : (s.setX r v).episode = s.episode := by unfold State.setX; split <;> rfl
@[simp] theorem State.setX_inputs (s : State) (r : RegIdx) (v : Word) : (s.setX r v).inputs = s.inputs := by unfold State.setX; split <;> rfl

/-! ### `State.storeCtrl` -/

@[simp] theorem State.storeCtrl_regs (s : State) (v : Byte) : (s.storeCtrl v).regs = s.regs := rfl
@[simp] theorem State.storeCtrl_pc (s : State) (v : Byte) : (s.storeCtrl v).pc = s.pc := rfl
@[simp] theorem State.storeCtrl_mepc (s : State) (v : Byte) : (s.storeCtrl v).mepc = s.mepc := rfl
@[simp] theorem State.storeCtrl_inIrq (s : State) (v : Byte) : (s.storeCtrl v).inIrq = s.inIrq := rfl
@[simp] theorem State.storeCtrl_mem (s : State) (v : Byte) : (s.storeCtrl v).mem = s.mem := rfl
@[simp] theorem State.storeCtrl_ctrl (s : State) (v : Byte) : (s.storeCtrl v).ctrl = joinCtrl v (s.ctrl.extractLsb' 0 6) := rfl
@[simp] theorem State.storeCtrl_data (s : State) (v : Byte) : (s.storeCtrl v).data = s.data := rfl
@[simp] theorem State.storeCtrl_textOut (s : State) (v : Byte) : (s.storeCtrl v).textOut = s.textOut := rfl
@[simp] theorem State.storeCtrl_dir (s : State) (v : Byte) : (s.storeCtrl v).dir = s.dir := rfl
@[simp] theorem State.storeCtrl_ien (s : State) (v : Byte) : (s.storeCtrl v).ien = s.ien := rfl
@[simp] theorem State.storeCtrl_rev (s : State) (v : Byte) : (s.storeCtrl v).rev = s.rev := rfl
@[simp] theorem State.storeCtrl_fev (s : State) (v : Byte) : (s.storeCtrl v).fev = s.fev := rfl
@[simp] theorem State.storeCtrl_val (s : State) (v : Byte) : (s.storeCtrl v).val = s.val := rfl
@[simp] theorem State.storeCtrl_textReads (s : State) (v : Byte) : (s.storeCtrl v).textReads = s.textReads := rfl
@[simp] theorem State.storeCtrl_changes (s : State) (v : Byte) : (s.storeCtrl v).changes = s.changes := rfl
@[simp] theorem State.storeCtrl_waited (s : State) (v : Byte) : (s.storeCtrl v).waited = s.waited := rfl
@[simp] theorem State.storeCtrl_episode (s : State) (v : Byte) : (s.storeCtrl v).episode = s.episode := rfl
@[simp] theorem State.storeCtrl_inputs (s : State) (v : Byte) : (s.storeCtrl v).inputs = s.inputs := rfl

/-! ### `State.storeTextOut` -/

@[simp] theorem State.storeTextOut_regs (s : State) (v : Byte) : (s.storeTextOut v).regs = s.regs := rfl
@[simp] theorem State.storeTextOut_pc (s : State) (v : Byte) : (s.storeTextOut v).pc = s.pc := rfl
@[simp] theorem State.storeTextOut_mepc (s : State) (v : Byte) : (s.storeTextOut v).mepc = s.mepc := rfl
@[simp] theorem State.storeTextOut_inIrq (s : State) (v : Byte) : (s.storeTextOut v).inIrq = s.inIrq := rfl
@[simp] theorem State.storeTextOut_mem (s : State) (v : Byte) : (s.storeTextOut v).mem = s.mem := rfl
@[simp] theorem State.storeTextOut_ctrl (s : State) (v : Byte) : (s.storeTextOut v).ctrl = s.ctrl := rfl
@[simp] theorem State.storeTextOut_data (s : State) (v : Byte) : (s.storeTextOut v).data = s.data := rfl
@[simp] theorem State.storeTextOut_textOut (s : State) (v : Byte) : (s.storeTextOut v).textOut = s.textOut ++ [v] := rfl
@[simp] theorem State.storeTextOut_dir (s : State) (v : Byte) : (s.storeTextOut v).dir = s.dir := rfl
@[simp] theorem State.storeTextOut_ien (s : State) (v : Byte) : (s.storeTextOut v).ien = s.ien := rfl
@[simp] theorem State.storeTextOut_rev (s : State) (v : Byte) : (s.storeTextOut v).rev = s.rev := rfl
@[simp] theorem State.storeTextOut_fev (s : State) (v : Byte) : (s.storeTextOut v).fev = s.fev := rfl
@[simp] theorem State.storeTextOut_val (s : State) (v : Byte) : (s.storeTextOut v).val = s.val := rfl
@[simp] theorem State.storeTextOut_textReads (s : State) (v : Byte) : (s.storeTextOut v).textReads = s.textReads := rfl
@[simp] theorem State.storeTextOut_changes (s : State) (v : Byte) : (s.storeTextOut v).changes = s.changes := rfl
@[simp] theorem State.storeTextOut_waited (s : State) (v : Byte) : (s.storeTextOut v).waited = s.waited := rfl
@[simp] theorem State.storeTextOut_episode (s : State) (v : Byte) : (s.storeTextOut v).episode = s.episode := rfl
@[simp] theorem State.storeTextOut_inputs (s : State) (v : Byte) : (s.storeTextOut v).inputs = s.inputs := rfl

/-! ### `State.storeGpio` -/

@[simp] theorem State.storeGpio_regs (s : State) (a v : Word) : (s.storeGpio a v).regs = s.regs := by
  unfold State.storeGpio; repeat' split
  all_goals rfl
@[simp] theorem State.storeGpio_pc (s : State) (a v : Word) : (s.storeGpio a v).pc = s.pc := by
  unfold State.storeGpio; repeat' split
  all_goals rfl
@[simp] theorem State.storeGpio_mepc (s : State) (a v : Word) : (s.storeGpio a v).mepc = s.mepc := by
  unfold State.storeGpio; repeat' split
  all_goals rfl
@[simp] theorem State.storeGpio_inIrq (s : State) (a v : Word) : (s.storeGpio a v).inIrq = s.inIrq := by
  unfold State.storeGpio; repeat' split
  all_goals rfl
@[simp] theorem State.storeGpio_mem (s : State) (a v : Word) : (s.storeGpio a v).mem = s.mem := by
  unfold State.storeGpio; repeat' split
  all_goals rfl
@[simp] theorem State.storeGpio_ctrl (s : State) (a v : Word) : (s.storeGpio a v).ctrl = s.ctrl := by
  unfold State.storeGpio; repeat' split
  all_goals rfl
@[simp] theorem State.storeGpio_data (s : State) (a v : Word) : (s.storeGpio a v).data = s.data := by
  unfold State.storeGpio; repeat' split
  all_goals rfl
@[simp] theorem State.storeGpio_textOut (s : State) (a v : Word) : (s.storeGpio a v).textOut = s.textOut := by
  unfold State.storeGpio; repeat' split
  all_goals rfl
@[simp] theorem State.storeGpio_textReads (s : State) (a v : Word) : (s.storeGpio a v).textReads = s.textReads := by
  unfold State.storeGpio; repeat' split
  all_goals rfl
@[simp] theorem State.storeGpio_changes (s : State) (a v : Word) : (s.storeGpio a v).changes = s.changes := by
  unfold State.storeGpio; repeat' split
  all_goals rfl
@[simp] theorem State.storeGpio_waited (s : State) (a v : Word) : (s.storeGpio a v).waited = s.waited := by
  unfold State.storeGpio; repeat' split
  all_goals rfl
@[simp] theorem State.storeGpio_episode (s : State) (a v : Word) : (s.storeGpio a v).episode = s.episode := by
  unfold State.storeGpio; repeat' split
  all_goals rfl
@[simp] theorem State.storeGpio_inputs (s : State) (a v : Word) : (s.storeGpio a v).inputs = s.inputs := by
  unfold State.storeGpio; repeat' split
  all_goals rfl

/-! ### `State.typeChar` -/

@[simp] theorem State.typeChar_regs (s : State) (c : Byte) : (s.typeChar c).regs = s.regs := rfl
@[simp] theorem State.typeChar_pc (s : State) (c : Byte) : (s.typeChar c).pc = s.pc := rfl
@[simp] theorem State.typeChar_mepc (s : State) (c : Byte) : (s.typeChar c).mepc = s.mepc := rfl
@[simp] theorem State.typeChar_inIrq (s : State) (c : Byte) : (s.typeChar c).inIrq = s.inIrq := rfl
@[simp] theorem State.typeChar_mem (s : State) (c : Byte) : (s.typeChar c).mem = s.mem := rfl
@[simp] theorem State.typeChar_ctrl (s : State) (c : Byte) : (s.typeChar c).ctrl = s.ctrl ||| 0x40#8 := rfl
@[simp] theorem State.typeChar_data (s : State) (c : Byte) : (s.typeChar c).data = c := rfl
@[simp] theorem State.typeChar_textOut (s : State) (c : Byte) : (s.typeChar c).textOut = s.textOut := rfl
@[simp] theorem State.typeChar_dir (s : State) (c : Byte) : (s.typeChar c).dir = s.dir := rfl
@[simp] theorem State.typeChar_ien (s : State) (c : Byte) : (s.typeChar c).ien = s.ien := rfl
@[simp] theorem State.typeChar_rev (s : State) (c : Byte) : (s.typeChar c).rev = s.rev := rfl
@[simp] theorem State.typeChar_fev (s : State) (c : Byte) : (s.typeChar c).fev = s.fev := rfl
@[simp] theorem State.typeChar_val (s : State) (c : Byte) : (s.typeChar c).val = s.val := rfl
@[simp] theorem State.typeChar_textReads (s : State) (c : Byte) : (s.typeChar c).textReads = s.textReads := rfl
@[simp] theorem State.typeChar_changes (s : State) (c : Byte) : (s.typeChar c).changes = s.changes := rfl
@[simp] theorem State.typeChar_waited (s : State) (c : Byte) : (s.typeChar c).waited = s.waited := rfl
@[simp] theorem State.typeChar_episode (s : State) (c : Byte) : (s.typeChar c).episode = s.episode := rfl
@[simp] theorem State.typeChar_inputs (s : State) (c : Byte) : (s.typeChar c).inputs = s.inputs := rfl

/-! ### `State.setPin` -/

@[simp] theorem State.setPin_regs (s : State) (pin : Fin 32) (level : Bool) : (s.setPin pin level).regs = s.regs := by unfold State.setPin; split <;> rfl
@[simp] theorem State.setPin_pc (s : State) (pin : Fin 32) (level : Bool) : (s.setPin pin level).pc = s.pc := by unfold State.setPin; split <;> rfl
@[simp] theorem State.setPin_mepc (s : State) (pin : Fin 32) (level : Bool) : (s.setPin pin level).mepc = s.mepc := by unfold State.setPin; split <;> rfl
@[simp] theorem State.setPin_inIrq (s : State) (pin : Fin 32) (level : Bool) : (s.setPin pin level).inIrq = s.inIrq := by unfold State.setPin; split <;> rfl
@[simp] theorem State.setPin_mem (s : State) (pin : Fin 32) (level : Bool) : (s.setPin pin level).mem = s.mem := by unfold State.setPin; split <;> rfl
@[simp] theorem State.setPin_ctrl (s : State) (pin : Fin 32) (level : Bool) : (s.setPin pin level).ctrl = s.ctrl := by unfold State.setPin; split <;> rfl
@[simp] theorem State.setPin_data (s : State) (pin : Fin 32) (level : Bool) : (s.setPin pin level).data = s.data := by unfold State.setPin; split <;> rfl
@[simp] theorem State.setPin_textOut (s : State) (pin : Fin 32) (level : Bool) : (s.setPin pin level).textOut = s.textOut := by unfold State.setPin; split <;> rfl
@[simp] theorem State.setPin_dir (s : State) (pin : Fin 32) (level : Bool) : (s.setPin pin level).dir = s.dir := by unfold State.setPin; split <;> rfl
@[simp] theorem State.setPin_ien (s : State) (pin : Fin 32) (level : Bool) : (s.setPin pin level).ien = s.ien := by unfold State.setPin; split <;> rfl
@[simp] theorem State.setPin_textReads (s : State) (pin : Fin 32) (level : Bool) : (s.setPin pin level).textReads = s.textReads := by unfold State.setPin; split <;> rfl
@[simp] theorem State.setPin_changes (s : State) (pin : Fin 32) (level : Bool) : (s.setPin pin level).changes = s.changes := by unfold State.setPin; split <;> rfl
@[simp] theorem State.setPin_waited (s : State) (pin : Fin 32) (level : Bool) : (s.setPin pin level).waited = s.waited := by unfold State.setPin; split <;> rfl
@[simp] theorem State.setPin_episode (s : State) (pin : Fin 32) (level : Bool) : (s.setPin pin level).episode = s.episode := by unfold State.setPin; split <;> rfl
@[simp] theorem State.setPin_inputs (s : State) (pin : Fin 32) (level : Bool) : (s.setPin pin level).inputs = s.inputs := by unfold State.setPin; split <;> rfl

/-! ### `State.takeInterrupt` -/

@[simp] theorem State.takeInterrupt_regs (s : State) : (s.takeInterrupt).regs = s.regs := rfl
@[simp] theorem State.takeInterrupt_pc (s : State) : (s.takeInterrupt).pc = Config.irqVector := rfl
@[simp] theorem State.takeInterrupt_mepc (s : State) : (s.takeInterrupt).mepc = s.pc := rfl
@[simp] theorem State.takeInterrupt_inIrq (s : State) : (s.takeInterrupt).inIrq = true := rfl
@[simp] theorem State.takeInterrupt_mem (s : State) : (s.takeInterrupt).mem = s.mem := rfl
@[simp] theorem State.takeInterrupt_ctrl (s : State) : (s.takeInterrupt).ctrl = s.ctrl := rfl
@[simp] theorem State.takeInterrupt_data (s : State) : (s.takeInterrupt).data = s.data := rfl
@[simp] theorem State.takeInterrupt_textOut (s : State) : (s.takeInterrupt).textOut = s.textOut := rfl
@[simp] theorem State.takeInterrupt_dir (s : State) : (s.takeInterrupt).dir = s.dir := rfl
@[simp] theorem State.takeInterrupt_ien (s : State) : (s.takeInterrupt).ien = s.ien := rfl
@[simp] theorem State.takeInterrupt_rev (s : State) : (s.takeInterrupt).rev = s.rev := rfl
@[simp] theorem State.takeInterrupt_fev (s : State) : (s.takeInterrupt).fev = s.fev := rfl
@[simp] theorem State.takeInterrupt_val (s : State) : (s.takeInterrupt).val = s.val := rfl
@[simp] theorem State.takeInterrupt_textReads (s : State) : (s.takeInterrupt).textReads = s.textReads := rfl
@[simp] theorem State.takeInterrupt_changes (s : State) : (s.takeInterrupt).changes = s.changes := rfl
@[simp] theorem State.takeInterrupt_waited (s : State) : (s.takeInterrupt).waited = s.waited := rfl
@[simp] theorem State.takeInterrupt_episode (s : State) : (s.takeInterrupt).episode = s.episode := rfl
@[simp] theorem State.takeInterrupt_inputs (s : State) : (s.takeInterrupt).inputs = s.inputs := rfl

/-! ### `State.endWait` -/

@[simp] theorem State.endWait_regs (s : State) : (s.endWait).regs = s.regs := rfl
@[simp] theorem State.endWait_pc (s : State) : (s.endWait).pc = s.pc := rfl
@[simp] theorem State.endWait_mepc (s : State) : (s.endWait).mepc = s.mepc := rfl
@[simp] theorem State.endWait_inIrq (s : State) : (s.endWait).inIrq = s.inIrq := rfl
@[simp] theorem State.endWait_mem (s : State) : (s.endWait).mem = s.mem := rfl
@[simp] theorem State.endWait_ctrl (s : State) : (s.endWait).ctrl = s.ctrl := rfl
@[simp] theorem State.endWait_data (s : State) : (s.endWait).data = s.data := rfl
@[simp] theorem State.endWait_textOut (s : State) : (s.endWait).textOut = s.textOut := rfl
@[simp] theorem State.endWait_dir (s : State) : (s.endWait).dir = s.dir := rfl
@[simp] theorem State.endWait_ien (s : State) : (s.endWait).ien = s.ien := rfl
@[simp] theorem State.endWait_rev (s : State) : (s.endWait).rev = s.rev := rfl
@[simp] theorem State.endWait_fev (s : State) : (s.endWait).fev = s.fev := rfl
@[simp] theorem State.endWait_val (s : State) : (s.endWait).val = s.val := rfl
@[simp] theorem State.endWait_textReads (s : State) : (s.endWait).textReads = s.textReads := rfl
@[simp] theorem State.endWait_changes (s : State) : (s.endWait).changes = s.changes := rfl
@[simp] theorem State.endWait_waited (s : State) : (s.endWait).waited = 0 := rfl
@[simp] theorem State.endWait_episode (s : State) : (s.endWait).episode = s.episode + 1 := rfl
@[simp] theorem State.endWait_inputs (s : State) : (s.endWait).inputs = s.inputs := rfl

/-! ### The host's actions leave the core, memory and the output side of the devices alone (60_exceptions.md R270) -/

@[simp] theorem State.hostAct_regs (s : State) (a : HostAction) : (s.hostAct a).regs = s.regs := by
  cases a <;> simp [State.hostAct]
@[simp] theorem State.hostAct_pc (s : State) (a : HostAction) : (s.hostAct a).pc = s.pc := by
  cases a <;> simp [State.hostAct]
@[simp] theorem State.hostAct_mepc (s : State) (a : HostAction) : (s.hostAct a).mepc = s.mepc := by
  cases a <;> simp [State.hostAct]
@[simp] theorem State.hostAct_inIrq (s : State) (a : HostAction) : (s.hostAct a).inIrq = s.inIrq := by
  cases a <;> simp [State.hostAct]
@[simp] theorem State.hostAct_mem (s : State) (a : HostAction) : (s.hostAct a).mem = s.mem := by
  cases a <;> simp [State.hostAct]
@[simp] theorem State.hostAct_textOut (s : State) (a : HostAction) : (s.hostAct a).textOut = s.textOut := by
  cases a <;> simp [State.hostAct]
@[simp] theorem State.hostAct_dir (s : State) (a : HostAction) : (s.hostAct a).dir = s.dir := by
  cases a <;> simp [State.hostAct]
@[simp] theorem State.hostAct_ien (s : State) (a : HostAction) : (s.hostAct a).ien = s.ien := by
  cases a <;> simp [State.hostAct]
@[simp] theorem State.hostAct_textReads (s : State) (a : HostAction) : (s.hostAct a).textReads = s.textReads := by
  cases a <;> simp [State.hostAct]
@[simp] theorem State.hostAct_waited (s : State) (a : HostAction) : (s.hostAct a).waited = s.waited := by
  cases a <;> simp [State.hostAct]
@[simp] theorem State.hostAct_episode (s : State) (a : HostAction) : (s.hostAct a).episode = s.episode := by
  cases a <;> simp [State.hostAct]
@[simp] theorem State.hostActs_regs (s : State) (as : List HostAction) : (s.hostActs as).regs = s.regs := by
  induction as generalizing s with
  | nil => rfl
  | cons a as ih => simp [State.hostActs, ih]
@[simp] theorem State.hostActs_pc (s : State) (as : List HostAction) : (s.hostActs as).pc = s.pc := by
  induction as generalizing s with
  | nil => rfl
  | cons a as ih => simp [State.hostActs, ih]
@[simp] theorem State.hostActs_mepc (s : State) (as : List HostAction) : (s.hostActs as).mepc = s.mepc := by
  induction as generalizing s with
  | nil => rfl
  | cons a as ih => simp [State.hostActs, ih]
@[simp] theorem State.hostActs_inIrq (s : State) (as : List HostAction) : (s.hostActs as).inIrq = s.inIrq := by
  induction as generalizing s with
  | nil => rfl
  | cons a as ih => simp [State.hostActs, ih]
@[simp] theorem State.hostActs_mem (s : State) (as : List HostAction) : (s.hostActs as).mem = s.mem := by
  induction as generalizing s with
  | nil => rfl
  | cons a as ih => simp [State.hostActs, ih]
@[simp] theorem State.hostActs_textOut (s : State) (as : List HostAction) : (s.hostActs as).textOut = s.textOut := by
  induction as generalizing s with
  | nil => rfl
  | cons a as ih => simp [State.hostActs, ih]
@[simp] theorem State.hostActs_dir (s : State) (as : List HostAction) : (s.hostActs as).dir = s.dir := by
  induction as generalizing s with
  | nil => rfl
  | cons a as ih => simp [State.hostActs, ih]
@[simp] theorem State.hostActs_ien (s : State) (as : List HostAction) : (s.hostActs as).ien = s.ien := by
  induction as generalizing s with
  | nil => rfl
  | cons a as ih => simp [State.hostActs, ih]
@[simp] theorem State.hostActs_textReads (s : State) (as : List HostAction) : (s.hostActs as).textReads = s.textReads := by
  induction as generalizing s with
  | nil => rfl
  | cons a as ih => simp [State.hostActs, ih]
@[simp] theorem State.hostActs_waited (s : State) (as : List HostAction) : (s.hostActs as).waited = s.waited := by
  induction as generalizing s with
  | nil => rfl
  | cons a as ih => simp [State.hostActs, ih]
@[simp] theorem State.hostActs_episode (s : State) (as : List HostAction) : (s.hostActs as).episode = s.episode := by
  induction as generalizing s with
  | nil => rfl
  | cons a as ih => simp [State.hostActs, ih]
@[simp] theorem State.hostTurn_regs (s : State) : s.hostTurn.regs = s.regs := by
  unfold State.hostTurn; split <;> simp
@[simp] theorem State.hostTurn_pc (s : State) : s.hostTurn.pc = s.pc := by
  unfold State.hostTurn; split <;> simp
@[simp] theorem State.hostTurn_mepc (s : State) : s.hostTurn.mepc = s.mepc := by
  unfold State.hostTurn; split <;> simp
@[simp] theorem State.hostTurn_inIrq (s : State) : s.hostTurn.inIrq = s.inIrq := by
  unfold State.hostTurn; split <;> simp
@[simp] theorem State.hostTurn_mem (s : State) : s.hostTurn.mem = s.mem := by
  unfold State.hostTurn; split <;> simp
@[simp] theorem State.hostTurn_textOut (s : State) : s.hostTurn.textOut = s.textOut := by
  unfold State.hostTurn; split <;> simp
@[simp] theorem State.hostTurn_dir (s : State) : s.hostTurn.dir = s.dir := by
  unfold State.hostTurn; split <;> simp
@[simp] theorem State.hostTurn_ien (s : State) : s.hostTurn.ien = s.ien := by
  unfold State.hostTurn; split <;> simp
@[simp] theorem State.hostTurn_textReads (s : State) : s.hostTurn.textReads = s.textReads := by
  unfold State.hostTurn; split <;> simp
@[simp] theorem State.hostTurn_waited (s : State) : s.hostTurn.waited = s.waited := by
  unfold State.hostTurn; split <;> simp
@[simp] theorem State.hostTurn_episode (s : State) : s.hostTurn.episode = s.episode := by
  unfold State.hostTurn; split <;> simp

/-! ### The boundary writes only the interrupt state of the core and the count of waiting (60_exceptions.md R242) -/

@[simp] theorem boundary_regs (p : IrqPolicy) (b a : State) : (boundary p b a).regs = a.regs := by
  unfold boundary; repeat' split
  all_goals simp
@[simp] theorem boundary_mem (p : IrqPolicy) (b a : State) : (boundary p b a).mem = a.mem := by
  unfold boundary; repeat' split
  all_goals simp
@[simp] theorem boundary_ctrl (p : IrqPolicy) (b a : State) : (boundary p b a).ctrl = a.ctrl := by
  unfold boundary; repeat' split
  all_goals simp
@[simp] theorem boundary_data (p : IrqPolicy) (b a : State) : (boundary p b a).data = a.data := by
  unfold boundary; repeat' split
  all_goals simp
@[simp] theorem boundary_textOut (p : IrqPolicy) (b a : State) : (boundary p b a).textOut = a.textOut := by
  unfold boundary; repeat' split
  all_goals simp
@[simp] theorem boundary_dir (p : IrqPolicy) (b a : State) : (boundary p b a).dir = a.dir := by
  unfold boundary; repeat' split
  all_goals simp
@[simp] theorem boundary_ien (p : IrqPolicy) (b a : State) : (boundary p b a).ien = a.ien := by
  unfold boundary; repeat' split
  all_goals simp
@[simp] theorem boundary_rev (p : IrqPolicy) (b a : State) : (boundary p b a).rev = a.rev := by
  unfold boundary; repeat' split
  all_goals simp
@[simp] theorem boundary_fev (p : IrqPolicy) (b a : State) : (boundary p b a).fev = a.fev := by
  unfold boundary; repeat' split
  all_goals simp
@[simp] theorem boundary_val (p : IrqPolicy) (b a : State) : (boundary p b a).val = a.val := by
  unfold boundary; repeat' split
  all_goals simp
@[simp] theorem boundary_textReads (p : IrqPolicy) (b a : State) : (boundary p b a).textReads = a.textReads := by
  unfold boundary; repeat' split
  all_goals simp
@[simp] theorem boundary_changes (p : IrqPolicy) (b a : State) : (boundary p b a).changes = a.changes := by
  unfold boundary; repeat' split
  all_goals simp
@[simp] theorem boundary_inputs (p : IrqPolicy) (b a : State) : (boundary p b a).inputs = a.inputs := by
  unfold boundary; repeat' split
  all_goals simp

/-! ### Registers (10_state.md R32) -/

@[simp] theorem State.x_zero (s : State) : s.x 0#5 = 0#32 := rfl

@[simp] theorem State.setX_zero (s : State) (v : Word) : s.setX 0#5 v = s := rfl

/-- What a register reads after a register write: the value, unless it is x[0] or another register. -/
theorem State.x_setX (s : State) (rd r : RegIdx) (v : Word) :
    (s.setX rd v).x r = if r = rd ∧ rd ≠ 0#5 then v else s.x r := by
  unfold State.setX State.x
  by_cases h0 : rd = 0#5
  · simp [h0]
  · by_cases hr : r = rd
    · subst hr; simp [h0]
    · have hne : rd.toNat ≠ r.toNat := fun h => hr (BitVec.eq_of_toNat_eq h.symm)
      simp [h0, hr, hne]

/-- Two states with the same register file read the same registers. -/
theorem State.x_congr {s t : State} (h : t.regs = s.regs) (r : RegIdx) : t.x r = s.x r := by
  simp [State.x, h]

/-- x[0]'s cell keeps its value under every register write. -/
theorem State.setX_regs_zero (s : State) (rd : RegIdx) (v : Word) : (s.setX rd v).regs[0] = s.regs[0] := by
  unfold State.setX
  split
  · rfl
  · rename_i h
    have : rd.toNat ≠ 0 := fun h' => h (BitVec.eq_of_toNat_eq h')
    simp [this]

/-! ### The request line depends on the device registers only (60_exceptions.md R246) -/

theorem State.irqRequest_congr {s t : State} (hc : t.ctrl = s.ctrl) (hi : t.ien = s.ien) (hr : t.rev = s.rev)
    (hf : t.fev = s.fev) : t.irqRequest = s.irqRequest := by
  simp [State.irqRequest, State.irqText, State.irqGpio, hc, hi, hr, hf]

end Sys2Proof.Machine
end

