-- ==== Sys2Proof/Laws/Ops.lean ====
section
/-! SUPPORT. What each shared operation can do, said once: the next address, the checks of an access, `MemRead`, `MemWrite`,
fetch, the boundary, and, over all instructions, what a completed instruction can have done. -/

namespace Sys2Proof.Machine

open Sys2Proof

/-! ### Results -/

@[simp] theorem mapNext_next (f : State → State) (s : State) : mapNext f (.next s) = .next (f s) := rfl
@[simp] theorem mapNext_fault (f : State → State) (r : Fault) : mapNext f (.fault r) = .fault r := rfl
@[simp] theorem mapNext_refused (f : State → State) (r : Refusal) : mapNext f (.refused r) = .refused r := rfl

/-- A mapped result has a next state exactly when the result has one. -/
theorem mapNext_eq_next {f : State → State} {o : Result} {u : State} :
    mapNext f o = .next u ↔ ∃ t, o = .next t ∧ u = f t := by
  cases o <;> simp [eq_comm]

/-! ### The next address (10_state.md R36) -/

theorem isAligned4_iff (t : Word) : isAligned4 t = true ↔ t.toNat % 4 = 0 := by
  simp only [isAligned4, beq_iff_eq]
  rw [← BitVec.toNat_inj]
  simp [BitVec.extractLsb'_toNat]

theorem isAligned4_add (a b : Word) (hb : b.toNat % 4 = 0) : isAligned4 (a + b) = isAligned4 a := by
  rw [Bool.eq_iff_iff, isAligned4_iff, isAligned4_iff, BitVec.toNat_add]
  omega

@[simp] theorem isAligned4_add_four (a : Word) : isAligned4 (a + 4#32) = isAligned4 a := isAligned4_add a _ rfl

/-- Ending an instruction at `t` completes exactly when `t` is a multiple of 4, and then only `pc` changes. -/
theorem State.goTo_next {s u : State} {t : Word} :
    s.goTo t = .next u ↔ isAligned4 t = true ∧ u = { s with pc := t } := by
  unfold State.goTo
  split
  · rename_i h; simp [h, eq_comm]
  · rename_i h; simp [h]

/-- Otherwise it is `MisalignedTarget`. -/
theorem State.goTo_fault {s : State} {t : Word} {f : Fault} :
    s.goTo t = .fault f ↔ isAligned4 t = false ∧ f = .misalignedTarget t s.pc := by
  unfold State.goTo
  split
  · rename_i h; simp [h]
  · rename_i h; simp [h, eq_comm]

theorem State.goTo_not_refused (s : State) (t : Word) (r : Refusal) : s.goTo t ≠ .refused r := by
  unfold State.goTo; split <;> simp

/-- From an aligned `pc` the sequential advance completes (10_state.md R37). -/
theorem State.advance_of_aligned {s : State} (h : isAligned4 s.pc = true) :
    s.advance = .next { s with pc := s.pc + 4#32 } := by
  rw [State.advance, State.goTo_next]; simp [h]

theorem State.writeBack_of_aligned {s : State} (h : isAligned4 s.pc = true) (rd : RegIdx) (v : Word) :
    s.writeBack rd v = .next { s.setX rd v with pc := s.pc + 4#32 } := by
  unfold State.writeBack
  rw [State.advance_of_aligned (by simpa using h)]; simp

/-! ### The checks of an access (20_memory.md R70) -/

/-- An access passes its checks exactly when it is aligned, mapped and admitted. -/
theorem checkAccess_ok {a : Word} {size : AccessSize} {kind : AccessKind} {r : Region} :
    checkAccess a size kind = .ok r ↔
      a.toNat % size.bytes = 0 ∧ regionOf a = some r ∧ admits r a size kind = true := by
  unfold checkAccess isMisaligned
  by_cases h : a.toNat % size.bytes = 0
  · cases hr : regionOf a with
    | none => simp [h]
    | some r' =>
      by_cases ha : admits r' a size kind = true
      · simp only [h, ha]; simp; rintro rfl; exact ha
      · simp only [h, ha]; simp; rintro rfl; simpa using ha
  · simp [h]

/-- The fault an access is stopped with, in the order of its checks. -/
theorem checkAccess_error {a : Word} {size : AccessSize} {kind : AccessKind} {f : Fault} :
    checkAccess a size kind = .error f ↔
      (a.toNat % size.bytes ≠ 0 ∧ f = .misalignedAccess a size) ∨
      (a.toNat % size.bytes = 0 ∧ regionOf a = none ∧ f = .unmappedAccess a size kind) ∨
      (a.toNat % size.bytes = 0 ∧ (∃ r, regionOf a = some r ∧ admits r a size kind = false) ∧
        f = .unsupportedDeviceAccess a size kind) := by
  unfold checkAccess isMisaligned
  by_cases h : a.toNat % size.bytes = 0
  · cases hr : regionOf a with
    | none => simp only [h]; simp; exact eq_comm
    | some r =>
      by_cases ha : admits r a size kind = true
      · simp [h, ha]
      · simp only [h, ha]; simp [ha]; exact eq_comm
  · simp only [h]; simp [h]; exact eq_comm

/-- In the 4096 bytes of memory an address lies in RAM or bitmap RAM (20_memory.md R60). -/
theorem regionOf_ram {a : Word} (h : a.toNat < 0x1000) : regionOf a = some .ram ∨ regionOf a = some .bitmapRam := by
  unfold regionOf Config.bitmapBase Config.memSize
  by_cases hb : a.toNat < 0xC00 <;> simp [hb, h]

/-- Only addresses below 4096 are RAM or bitmap RAM. -/
theorem lt_of_regionOf_ram {a : Word} (h : regionOf a = some .ram ∨ regionOf a = some .bitmapRam) : a.toNat < 0x1000 := by
  unfold regionOf Config.bitmapBase Config.memSize at h
  repeat' split at h
  all_goals first | omega | simp at h

/-- An aligned load or store in RAM or bitmap RAM passes its checks, whatever its width (20_memory.md R68). -/
theorem checkAccess_ram {a : Word} {size : AccessSize} {kind : AccessKind} (hk : kind ≠ .fetch)
    (ha : a.toNat % size.bytes = 0) (hm : a.toNat < 0x1000) :
    checkAccess a size kind = .ok .ram ∨ checkAccess a size kind = .ok .bitmapRam := by
  rcases regionOf_ram hm with h | h
  · left; rw [checkAccess_ok]; refine ⟨ha, h, ?_⟩; cases kind <;> first | exact absurd rfl hk | rfl
  · right; rw [checkAccess_ok]; refine ⟨ha, h, ?_⟩; cases kind <;> first | exact absurd rfl hk | rfl

/-! ### `MemRead`, `MemWrite`, fetch (20_memory.md R70, R71, R72) -/

/-- A load in memory reads the bytes there and changes nothing. -/
theorem State.memRead_ram {s : State} {a : Word} {size : AccessSize} (ha : a.toNat % size.bytes = 0)
    (hm : a.toNat < 0x1000) : s.memRead a size = .ok (s.mem.readLE a.toNat size.bytes, s) := by
  unfold State.memRead
  rcases checkAccess_ram (kind := .load) (by simp) ha hm with h | h <;> rw [h]

/-- What a load leaves: the same state, but for the model's count of reads of the write-only register. -/
theorem State.memRead_ok {s s' : State} {a v : Word} {size : AccessSize} (h : s.memRead a size = .ok (v, s')) :
    s' = s ∨ (checkAccess a size .load = .ok .textOutput ∧ s' = { s with textReads := s.textReads + 1 }) := by
  unfold State.memRead at h
  split at h
  · cases h
  · simp only [Except.ok.injEq, Prod.mk.injEq] at h; exact .inl h.2.symm
  · simp only [Except.ok.injEq, Prod.mk.injEq] at h; exact .inl h.2.symm
  · simp only [Except.ok.injEq, Prod.mk.injEq] at h; exact .inl h.2.symm
  · rename_i hc
    simp only [Except.ok.injEq, Prod.mk.injEq] at h; exact .inr ⟨hc, h.2.symm⟩
  · simp only [Except.ok.injEq, Prod.mk.injEq] at h; exact .inl h.2.symm

/-- A load fails exactly as its checks do. -/
theorem State.memRead_error {s : State} {a : Word} {size : AccessSize} {f : Fault} :
    s.memRead a size = .error f ↔ checkAccess a size .load = .error f := by
  unfold State.memRead
  split <;> simp_all

/-- A store in memory writes the bytes there. -/
theorem State.memWrite_ram {s : State} {a v : Word} {size : AccessSize} (ha : a.toNat % size.bytes = 0)
    (hm : a.toNat < 0x1000) :
    s.memWrite a size v = .ok { s with mem := s.mem.writeLE a.toNat size.bytes v, changes := s.changes + 1 } := by
  unfold State.memWrite
  rcases checkAccess_ram (kind := .store) (by simp) ha hm with h | h <;> rw [h] <;> rfl

/-- What a store leaves: the effect on the region its checks gave, and one more change. -/
theorem State.memWrite_ok {s s' : State} {a v : Word} {size : AccessSize} (h : s.memWrite a size v = .ok s') :
    ∃ r, checkAccess a size .store = .ok r ∧ s' = { s.storeTo r a size v with changes := s.changes + 1 } := by
  unfold State.memWrite at h
  split at h
  · cases h
  · rename_i r hc
    exact ⟨r, hc, by simpa using h.symm⟩

/-- A store fails exactly as its checks do. -/
theorem State.memWrite_error {s : State} {a v : Word} {size : AccessSize} {f : Fault} :
    s.memWrite a size v = .error f ↔ checkAccess a size .store = .error f := by
  unfold State.memWrite
  split <;> simp_all

/-- A store to a region leaves the core alone: registers, `pc`, `mepc`, `in_irq`, and the model's other fields. -/
theorem State.storeTo_core (s : State) (r : Region) (a : Word) (size : AccessSize) (v : Word) :
    (s.storeTo r a size v).regs = s.regs ∧ (s.storeTo r a size v).pc = s.pc ∧ (s.storeTo r a size v).mepc = s.mepc ∧
    (s.storeTo r a size v).inIrq = s.inIrq ∧ (s.storeTo r a size v).data = s.data ∧
    (s.storeTo r a size v).textReads = s.textReads ∧ (s.storeTo r a size v).waited = s.waited ∧
    (s.storeTo r a size v).episode = s.episode ∧ (s.storeTo r a size v).inputs = s.inputs := by
  cases r <;> simp [State.storeTo]

/-- A store keeps memory canonical and in RAM. -/
theorem State.memWrite_mem {s s' : State} {a v : Word} {size : AccessSize} (h : s.memWrite a size v = .ok s')
    (hw : s.mem.wf = true) (hr : s.mem.inRam = true) : s'.mem.wf = true ∧ s'.mem.inRam = true := by
  obtain ⟨r, hc, rfl⟩ := State.memWrite_ok h
  obtain ⟨ha, hreg, -⟩ := checkAccess_ok.mp hc
  have bound (hlt : a.toNat < 0x1000) : a.toNat + size.bytes ≤ Config.memSize := by
    unfold Config.memSize
    cases size <;> simp only [AccessSize.bytes] at ha ⊢ <;> omega
  cases r with
  | ram => exact ⟨Memory.writeLE_wf hw _ _ _, Memory.writeLE_inRam hr (bound (lt_of_regionOf_ram (.inl hreg))) _⟩
  | bitmapRam => exact ⟨Memory.writeLE_wf hw _ _ _, Memory.writeLE_inRam hr (bound (lt_of_regionOf_ram (.inr hreg))) _⟩
  | textInput => exact ⟨hw, hr⟩
  | textOutput => exact ⟨hw, hr⟩
  | gpio => simpa [State.storeTo] using ⟨hw, hr⟩

/-- Fetch from memory: the four bytes at `pc` as a word (20_memory.md R65). -/
theorem State.fetch_ram {s : State} (ha : isAligned4 s.pc = true) (hm : s.pc.toNat < 0x1000) :
    s.fetch = .ok (wordOfBytes (s.mem.read s.pc.toNat) (s.mem.read (s.pc.toNat + 1)) (s.mem.read (s.pc.toNat + 2))
      (s.mem.read (s.pc.toNat + 3))) := by
  rw [isAligned4_iff] at ha
  have hc : ∃ r, checkAccess s.pc .word .fetch = .ok r := by
    rcases regionOf_ram hm with h | h <;> exact ⟨_, checkAccess_ok.mpr ⟨ha, h, rfl⟩⟩
  obtain ⟨r, hc⟩ := hc
  unfold State.fetch
  rw [hc, Memory.readLE_four]

/-- Fetch succeeds only at an aligned `pc` in memory. -/
theorem State.fetch_ok {s : State} {w : Word} (h : s.fetch = .ok w) :
    isAligned4 s.pc = true ∧ s.pc.toNat < 0x1000 := by
  unfold State.fetch at h
  split at h
  · cases h
  · rename_i r hc
    obtain ⟨ha, hreg, hadm⟩ := checkAccess_ok.mp hc
    refine ⟨(isAligned4_iff _).mpr ha, lt_of_regionOf_ram ?_⟩
    cases r <;> simp_all [admits]

/-- What fetch sees is `pc` and memory. -/
theorem State.fetch_congr {s t : State} (hp : t.pc = s.pc) (hm : t.mem = s.mem) : t.fetch = s.fetch := by
  simp [State.fetch, hp, hm]

/-- A load whose access answers writes what it answers, widened. -/
theorem State.loadInto_of_ok {s s' : State} {rd : RegIdx} {a v : Word} {size : AccessSize} {widen : Word → Word}
    (h : s.memRead a size = .ok (v, s')) : s.loadInto rd a size widen = s'.writeBack rd (widen v) := by
  unfold State.loadInto; rw [h]

/-- A store whose access answers, from an aligned `pc`, goes on at `pc + 4`. -/
theorem State.storeFrom_of_ok {s s' : State} {rs2 : RegIdx} {a : Word} {size : AccessSize}
    (h : s.memWrite a size (s.x rs2) = .ok s') (ha : isAligned4 s'.pc = true) :
    s.storeFrom rs2 a size = .next { s' with pc := s'.pc + 4#32 } := by
  unfold State.storeFrom; rw [h]; exact State.advance_of_aligned ha

/-! ### What a completed instruction can have done -/

/-- The five things a completed instruction can have done, besides setting `pc`. -/
theorem exec_next {i : Instr} {s t : State} (h : exec i s = .next t) :
    isAligned4 t.pc = true ∧
    ((∃ rd v k, i.rd? = some rd ∧ i.isStore = false ∧ i ≠ .mret ∧
        t = { State.setX { s with textReads := k } rd v with pc := t.pc }) ∨
     (i.rd? = none ∧ i.isStore = false ∧ i ≠ .mret ∧ t = { s with pc := t.pc }) ∨
     (i.rd? = none ∧ i.isStore = true ∧ ∃ a size v s', s.memWrite a size v = .ok s' ∧ t = { s' with pc := s.pc + 4#32 }) ∨
     (i = .mret ∧ t = { s with inIrq := false, pc := s.mepc })) := by
  have wb {s' : State} {rd : RegIdx} {v : Word} (h : s'.writeBack rd v = .next t) :
      isAligned4 t.pc = true ∧ t = { s'.setX rd v with pc := t.pc } := by
    obtain ⟨ha, rfl⟩ := State.goTo_next.mp h
    exact ⟨ha, rfl⟩
  have lg {rd : RegIdx} {v : Word} (h : s.linkAndGo rd v = .next t) :
      isAligned4 t.pc = true ∧ t = { s.setX rd (s.pc + 4#32) with pc := t.pc } := by
    obtain ⟨ha, rfl⟩ := State.goTo_next.mp h
    exact ⟨ha, rfl⟩
  have br {c : Bool} {off : BitVec 13} (h : s.branchIf c off = .next t) :
      isAligned4 t.pc = true ∧ t = { s with pc := t.pc } := by
    unfold State.branchIf at h
    split at h <;> (obtain ⟨ha, rfl⟩ := State.goTo_next.mp h; exact ⟨ha, rfl⟩)
  have ld {rd : RegIdx} {a : Word} {size : AccessSize} {widen : Word → Word} (h : s.loadInto rd a size widen = .next t) :
      isAligned4 t.pc = true ∧ ∃ v k, t = { State.setX { s with textReads := k } rd v with pc := t.pc } := by
    unfold State.loadInto at h
    split at h
    · cases h
    · rename_i v s' hr
      obtain ⟨ha, ht⟩ := wb h
      refine ⟨ha, widen v, s'.textReads, ?_⟩
      rcases State.memRead_ok hr with rfl | ⟨-, rfl⟩ <;> exact ht
  have st {rs2 : RegIdx} {a : Word} {size : AccessSize} (h : s.storeFrom rs2 a size = .next t) :
      isAligned4 t.pc = true ∧ ∃ a size v s', s.memWrite a size v = .ok s' ∧ t = { s' with pc := s.pc + 4#32 } := by
    unfold State.storeFrom at h
    split at h
    · cases h
    · rename_i s' hw
      obtain ⟨ha, rfl⟩ := State.goTo_next.mp h
      refine ⟨ha, a, size, _, s', hw, ?_⟩
      obtain ⟨r, -, rfl⟩ := State.memWrite_ok hw
      simp [(State.storeTo_core s r a size _).2.1]
  cases i
  case mret =>
    obtain ⟨ha, rfl⟩ := State.goTo_next.mp h
    exact ⟨ha, .inr (.inr (.inr ⟨rfl, rfl⟩))⟩
  case jal rd off => obtain ⟨ha, ht⟩ := lg h; exact ⟨ha, .inl ⟨_, _, s.textReads, rfl, rfl, by simp, ht⟩⟩
  case jalr rd rs1 imm => obtain ⟨ha, ht⟩ := lg h; exact ⟨ha, .inl ⟨_, _, s.textReads, rfl, rfl, by simp, ht⟩⟩
  case lb | lh | lw | lbu | lhu =>
    obtain ⟨ha, v, k, ht⟩ := ld h; exact ⟨ha, .inl ⟨_, v, k, rfl, rfl, by simp, ht⟩⟩
  case beq | bne | blt | bge | bltu | bgeu =>
    obtain ⟨ha, ht⟩ := br h; exact ⟨ha, .inr (.inl ⟨rfl, rfl, by simp, ht⟩)⟩
  case sb | sh | sw =>
    obtain ⟨ha, hs⟩ := st h; exact ⟨ha, .inr (.inr (.inl ⟨rfl, rfl, hs⟩))⟩
  all_goals obtain ⟨ha, ht⟩ := wb h; exact ⟨ha, .inl ⟨_, _, s.textReads, rfl, rfl, by simp, ht⟩⟩

/-! ### The step -/

/-- A step that completes: the host's turn, a fetched and decoded instruction that completes, and the boundary. -/
theorem step_next {s u : State} (h : step s = .next u) :
    ∃ w i t, s.hostTurn.fetch = .ok w ∧ decode w = .ok i ∧ exec i s.hostTurn = .next t ∧
      u = boundary Config.irqPolicy s.hostTurn t := by
  obtain ⟨t, hr, hu⟩ := mapNext_eq_next.mp h
  unfold State.runInstr at hr
  cases hf : s.hostTurn.fetch with
  | error f => simp [hf] at hr
  | ok w =>
    cases hd : decode w with
    | error e => simp [hf, hd] at hr
    | ok i =>
      simp only [hf, hd] at hr
      exact ⟨w, i, t, rfl, hd, hr, hu⟩

/-- The three things the boundary can do (60_exceptions.md R240, R241, R242). -/
theorem boundary_cases (p : IrqPolicy) (b a : State) :
    (a.isEligible = true ∧ takesAt p b a = true ∧ boundary p b a = a.takeInterrupt.endWait) ∨
    (a.isEligible = true ∧ takesAt p b a = false ∧ boundary p b a = { a with waited := a.waited + 1 }) ∨
    (a.isEligible = false ∧ ((a.waited = 0 ∧ boundary p b a = a) ∨ (a.waited ≠ 0 ∧ boundary p b a = a.endWait))) := by
  unfold boundary
  by_cases he : a.isEligible = true
  · by_cases ht : takesAt p b a = true
    · simp [he, ht]
    · simp [he, ht]
  · by_cases hw : a.waited = 0
    · simp [he, hw]
    · simp [he, hw]

end Sys2Proof.Machine
end

