-- ==== Sys2Proof/Laws/PerInstr.lean ====
section
/-! SUPPORT. Facts about every instruction as syntax, one lemma per constructor. -/

namespace Sys2Proof.Laws

open Sys2Proof

/-- The encoding of an instruction has one of the ten base opcodes (spec/30_encoding.md R110). -/
def EncodedOpcode.Statement (i : Instr) : Prop :=
  opcodeOf (encode i) ∈
    [opLoad, opOpImm, opAuipc, opStore, opOp, opLui, opBranch, opJalr, opJal, opSystem]

theorem EncodedOpcode.lui (a : RegIdx) (b : BitVec 20) : EncodedOpcode.Statement (.lui a b) := by
  simp [EncodedOpcode.Statement, encode, encU_eq_encR]

theorem EncodedOpcode.auipc (a : RegIdx) (b : BitVec 20) : EncodedOpcode.Statement (.auipc a b) := by
  simp [EncodedOpcode.Statement, encode, encU_eq_encR]

theorem EncodedOpcode.jal (a : RegIdx) (b : BitVec 21) : EncodedOpcode.Statement (.jal a b) := by
  simp [EncodedOpcode.Statement, encode, encJ_eq_encR]

theorem EncodedOpcode.jalr (a : RegIdx) (b : RegIdx) (c : BitVec 12) : EncodedOpcode.Statement (.jalr a b c) := by
  simp [EncodedOpcode.Statement, encode, encI_eq_encR]

theorem EncodedOpcode.beq (a : RegIdx) (b : RegIdx) (c : BitVec 13) : EncodedOpcode.Statement (.beq a b c) := by
  simp [EncodedOpcode.Statement, encode, encB_eq_encR]

theorem EncodedOpcode.bne (a : RegIdx) (b : RegIdx) (c : BitVec 13) : EncodedOpcode.Statement (.bne a b c) := by
  simp [EncodedOpcode.Statement, encode, encB_eq_encR]

theorem EncodedOpcode.blt (a : RegIdx) (b : RegIdx) (c : BitVec 13) : EncodedOpcode.Statement (.blt a b c) := by
  simp [EncodedOpcode.Statement, encode, encB_eq_encR]

theorem EncodedOpcode.bge (a : RegIdx) (b : RegIdx) (c : BitVec 13) : EncodedOpcode.Statement (.bge a b c) := by
  simp [EncodedOpcode.Statement, encode, encB_eq_encR]

theorem EncodedOpcode.bltu (a : RegIdx) (b : RegIdx) (c : BitVec 13) : EncodedOpcode.Statement (.bltu a b c) := by
  simp [EncodedOpcode.Statement, encode, encB_eq_encR]

theorem EncodedOpcode.bgeu (a : RegIdx) (b : RegIdx) (c : BitVec 13) : EncodedOpcode.Statement (.bgeu a b c) := by
  simp [EncodedOpcode.Statement, encode, encB_eq_encR]

theorem EncodedOpcode.lb (a : RegIdx) (b : RegIdx) (c : BitVec 12) : EncodedOpcode.Statement (.lb a b c) := by
  simp [EncodedOpcode.Statement, encode, encI_eq_encR]

theorem EncodedOpcode.lh (a : RegIdx) (b : RegIdx) (c : BitVec 12) : EncodedOpcode.Statement (.lh a b c) := by
  simp [EncodedOpcode.Statement, encode, encI_eq_encR]

theorem EncodedOpcode.lw (a : RegIdx) (b : RegIdx) (c : BitVec 12) : EncodedOpcode.Statement (.lw a b c) := by
  simp [EncodedOpcode.Statement, encode, encI_eq_encR]

theorem EncodedOpcode.lbu (a : RegIdx) (b : RegIdx) (c : BitVec 12) : EncodedOpcode.Statement (.lbu a b c) := by
  simp [EncodedOpcode.Statement, encode, encI_eq_encR]

theorem EncodedOpcode.lhu (a : RegIdx) (b : RegIdx) (c : BitVec 12) : EncodedOpcode.Statement (.lhu a b c) := by
  simp [EncodedOpcode.Statement, encode, encI_eq_encR]

theorem EncodedOpcode.sb (a : RegIdx) (b : RegIdx) (c : BitVec 12) : EncodedOpcode.Statement (.sb a b c) := by
  simp [EncodedOpcode.Statement, encode, encS_eq_encR]

theorem EncodedOpcode.sh (a : RegIdx) (b : RegIdx) (c : BitVec 12) : EncodedOpcode.Statement (.sh a b c) := by
  simp [EncodedOpcode.Statement, encode, encS_eq_encR]

theorem EncodedOpcode.sw (a : RegIdx) (b : RegIdx) (c : BitVec 12) : EncodedOpcode.Statement (.sw a b c) := by
  simp [EncodedOpcode.Statement, encode, encS_eq_encR]

theorem EncodedOpcode.addi (a : RegIdx) (b : RegIdx) (c : BitVec 12) : EncodedOpcode.Statement (.addi a b c) := by
  simp [EncodedOpcode.Statement, encode, encI_eq_encR]

theorem EncodedOpcode.slli (a : RegIdx) (b : RegIdx) (c : BitVec 5) : EncodedOpcode.Statement (.slli a b c) := by
  simp [EncodedOpcode.Statement, encode]

theorem EncodedOpcode.slti (a : RegIdx) (b : RegIdx) (c : BitVec 12) : EncodedOpcode.Statement (.slti a b c) := by
  simp [EncodedOpcode.Statement, encode, encI_eq_encR]

theorem EncodedOpcode.sltiu (a : RegIdx) (b : RegIdx) (c : BitVec 12) : EncodedOpcode.Statement (.sltiu a b c) := by
  simp [EncodedOpcode.Statement, encode, encI_eq_encR]

theorem EncodedOpcode.xori (a : RegIdx) (b : RegIdx) (c : BitVec 12) : EncodedOpcode.Statement (.xori a b c) := by
  simp [EncodedOpcode.Statement, encode, encI_eq_encR]

theorem EncodedOpcode.srli (a : RegIdx) (b : RegIdx) (c : BitVec 5) : EncodedOpcode.Statement (.srli a b c) := by
  simp [EncodedOpcode.Statement, encode]

theorem EncodedOpcode.srai (a : RegIdx) (b : RegIdx) (c : BitVec 5) : EncodedOpcode.Statement (.srai a b c) := by
  simp [EncodedOpcode.Statement, encode]

theorem EncodedOpcode.ori (a : RegIdx) (b : RegIdx) (c : BitVec 12) : EncodedOpcode.Statement (.ori a b c) := by
  simp [EncodedOpcode.Statement, encode, encI_eq_encR]

theorem EncodedOpcode.andi (a : RegIdx) (b : RegIdx) (c : BitVec 12) : EncodedOpcode.Statement (.andi a b c) := by
  simp [EncodedOpcode.Statement, encode, encI_eq_encR]

theorem EncodedOpcode.add (a : RegIdx) (b : RegIdx) (c : RegIdx) : EncodedOpcode.Statement (.add a b c) := by
  simp [EncodedOpcode.Statement, encode]

theorem EncodedOpcode.sub (a : RegIdx) (b : RegIdx) (c : RegIdx) : EncodedOpcode.Statement (.sub a b c) := by
  simp [EncodedOpcode.Statement, encode]

theorem EncodedOpcode.sll (a : RegIdx) (b : RegIdx) (c : RegIdx) : EncodedOpcode.Statement (.sll a b c) := by
  simp [EncodedOpcode.Statement, encode]

theorem EncodedOpcode.slt (a : RegIdx) (b : RegIdx) (c : RegIdx) : EncodedOpcode.Statement (.slt a b c) := by
  simp [EncodedOpcode.Statement, encode]

theorem EncodedOpcode.sltu (a : RegIdx) (b : RegIdx) (c : RegIdx) : EncodedOpcode.Statement (.sltu a b c) := by
  simp [EncodedOpcode.Statement, encode]

theorem EncodedOpcode.xor (a : RegIdx) (b : RegIdx) (c : RegIdx) : EncodedOpcode.Statement (.xor a b c) := by
  simp [EncodedOpcode.Statement, encode]

theorem EncodedOpcode.srl (a : RegIdx) (b : RegIdx) (c : RegIdx) : EncodedOpcode.Statement (.srl a b c) := by
  simp [EncodedOpcode.Statement, encode]

theorem EncodedOpcode.sra (a : RegIdx) (b : RegIdx) (c : RegIdx) : EncodedOpcode.Statement (.sra a b c) := by
  simp [EncodedOpcode.Statement, encode]

theorem EncodedOpcode.or (a : RegIdx) (b : RegIdx) (c : RegIdx) : EncodedOpcode.Statement (.or a b c) := by
  simp [EncodedOpcode.Statement, encode]

theorem EncodedOpcode.and (a : RegIdx) (b : RegIdx) (c : RegIdx) : EncodedOpcode.Statement (.and a b c) := by
  simp [EncodedOpcode.Statement, encode]

theorem EncodedOpcode.mret : EncodedOpcode.Statement .mret := by
  simp [EncodedOpcode.Statement, encode]

end Sys2Proof.Laws
end

