-- ==== Sys2Proof/Tests/Slice0.lean ====
section
/-! SUPPORT. Tests: the well-formedness checks refuse, words written out field by field from spec/30_encoding.md decode, vectors
of spec/95_test_vectors.md run (their section is named), and, for every statement with hypotheses, concrete states and
operands that meet them. -/

namespace Sys2Proof.Tests

open Sys2Proof Sys2Proof.Machine

/-- The reset state with some registers, a `pc` and the word there. -/
def sample (pc w x5 x6 x7 : Word) : State :=
  State.placeWord (State.setX (State.setX (State.setX { State.reset with pc := pc } 5#5 x5) 6#5 x6) 7#5 x7) w

/-- Register `r` and `pc` after one instruction. -/
def regAfter (s : State) (r : RegIdx) : Option (Word × Word) :=
  match s.runInstr with
  | .next t => some (t.x r, t.pc)
  | _ => none

/-- `n` bytes from `a` after one instruction. -/
def bytesAfter (s : State) (a n : Nat) : Option (List Byte) :=
  match s.runInstr with
  | .next t => some ((List.range n).map fun k => t.mem.read (a + k))
  | _ => none

/-- What one instruction faults with. -/
def faultOf (s : State) : Option Fault :=
  match s.runInstr with
  | .fault f => some f
  | _ => none

/-- Something of the state after one instruction. -/
def after {α : Type} (o : Result) (f : State → α) : Option α :=
  match o with
  | .next t => some (f t)
  | _ => none

/-! ### Well-formedness (30_encoding.md R106, R108: offsets are even) -/

theorem test_wf_refuses_odd_jal : WellFormed (.jal 1#5 3#21) = false := by decide
theorem test_wf_refuses_odd_beq : WellFormed (.beq 1#5 2#5 7#13) = false := by decide
theorem test_wf_refuses_odd_bne : WellFormed (.bne 1#5 2#5 7#13) = false := by decide
theorem test_wf_refuses_odd_blt : WellFormed (.blt 1#5 2#5 7#13) = false := by decide
theorem test_wf_refuses_odd_bge : WellFormed (.bge 1#5 2#5 7#13) = false := by decide
theorem test_wf_refuses_odd_bltu : WellFormed (.bltu 1#5 2#5 7#13) = false := by decide
theorem test_wf_refuses_odd_bgeu : WellFormed (.bgeu 1#5 2#5 7#13) = false := by decide
theorem test_wf_admits_two_bytes : WellFormed (.jal 1#5 2#21) = true ∧ WellFormed (.beq 1#5 2#5 (-4096#13)) = true := by decide

/-! ### Decoding: one word for each row, its fields from the format table (R101), opcodes (R110), rows (R112) -/

theorem test_decode_lui : decode (0b00010010001101000101#20 ++ 0b00101#5 ++ 0b0110111#7) = .ok (.lui 5#5 0x12345#20) := rfl
theorem test_decode_auipc : decode (0b00000000000000000001#20 ++ 0b00110#5 ++ 0b0010111#7) = .ok (.auipc 6#5 1#20) := rfl
theorem test_decode_jal : decode (0b1#1 ++ 0b0000001000#10 ++ 0b1#1 ++ 0b00000011#8 ++ 0b00001#5 ++ 0b1101111#7) = .ok (.jal 1#5 (-1034224#21)) := rfl
theorem test_decode_jalr : decode (0b111111111100#12 ++ 0b00101#5 ++ 0b000#3 ++ 0b00001#5 ++ 0b1100111#7) = .ok (.jalr 1#5 5#5 (-4#12)) := rfl
theorem test_decode_beq : decode (0b1#1 ++ 0b000001#6 ++ 0b00111#5 ++ 0b00110#5 ++ 0b000#3 ++ 0b0110#4 ++ 0b0#1 ++ 0b1100011#7) = .ok (.beq 6#5 7#5 (-4052#13)) := rfl
theorem test_decode_bne : decode (0b1#1 ++ 0b000001#6 ++ 0b00111#5 ++ 0b00110#5 ++ 0b001#3 ++ 0b0110#4 ++ 0b0#1 ++ 0b1100011#7) = .ok (.bne 6#5 7#5 (-4052#13)) := rfl
theorem test_decode_blt : decode (0b1#1 ++ 0b000001#6 ++ 0b00111#5 ++ 0b00110#5 ++ 0b100#3 ++ 0b0110#4 ++ 0b0#1 ++ 0b1100011#7) = .ok (.blt 6#5 7#5 (-4052#13)) := rfl
theorem test_decode_bge : decode (0b1#1 ++ 0b000001#6 ++ 0b00111#5 ++ 0b00110#5 ++ 0b101#3 ++ 0b0110#4 ++ 0b0#1 ++ 0b1100011#7) = .ok (.bge 6#5 7#5 (-4052#13)) := rfl
theorem test_decode_bltu : decode (0b1#1 ++ 0b000001#6 ++ 0b00111#5 ++ 0b00110#5 ++ 0b110#3 ++ 0b0110#4 ++ 0b0#1 ++ 0b1100011#7) = .ok (.bltu 6#5 7#5 (-4052#13)) := rfl
theorem test_decode_bgeu : decode (0b1#1 ++ 0b000001#6 ++ 0b00111#5 ++ 0b00110#5 ++ 0b111#3 ++ 0b0110#4 ++ 0b0#1 ++ 0b1100011#7) = .ok (.bgeu 6#5 7#5 (-4052#13)) := rfl
theorem test_decode_lb : decode (0b100000000011#12 ++ 0b00110#5 ++ 0b000#3 ++ 0b00101#5 ++ 0b0000011#7) = .ok (.lb 5#5 6#5 (-2045#12)) := rfl
theorem test_decode_lh : decode (0b100000000011#12 ++ 0b00110#5 ++ 0b001#3 ++ 0b00101#5 ++ 0b0000011#7) = .ok (.lh 5#5 6#5 (-2045#12)) := rfl
theorem test_decode_lw : decode (0b100000000011#12 ++ 0b00110#5 ++ 0b010#3 ++ 0b00101#5 ++ 0b0000011#7) = .ok (.lw 5#5 6#5 (-2045#12)) := rfl
theorem test_decode_lbu : decode (0b100000000011#12 ++ 0b00110#5 ++ 0b100#3 ++ 0b00101#5 ++ 0b0000011#7) = .ok (.lbu 5#5 6#5 (-2045#12)) := rfl
theorem test_decode_lhu : decode (0b100000000011#12 ++ 0b00110#5 ++ 0b101#3 ++ 0b00101#5 ++ 0b0000011#7) = .ok (.lhu 5#5 6#5 (-2045#12)) := rfl
theorem test_decode_sb : decode (0b1000000#7 ++ 0b00111#5 ++ 0b00110#5 ++ 0b000#3 ++ 0b00011#5 ++ 0b0100011#7) = .ok (.sb 6#5 7#5 (-2045#12)) := rfl
theorem test_decode_sh : decode (0b1000000#7 ++ 0b00111#5 ++ 0b00110#5 ++ 0b001#3 ++ 0b00011#5 ++ 0b0100011#7) = .ok (.sh 6#5 7#5 (-2045#12)) := rfl
theorem test_decode_sw : decode (0b1000000#7 ++ 0b00111#5 ++ 0b00110#5 ++ 0b010#3 ++ 0b00011#5 ++ 0b0100011#7) = .ok (.sw 6#5 7#5 (-2045#12)) := rfl
theorem test_decode_addi : decode (0b011111111110#12 ++ 0b00110#5 ++ 0b000#3 ++ 0b00101#5 ++ 0b0010011#7) = .ok (.addi 5#5 6#5 2046#12) := rfl
theorem test_decode_slti : decode (0b011111111110#12 ++ 0b00110#5 ++ 0b010#3 ++ 0b00101#5 ++ 0b0010011#7) = .ok (.slti 5#5 6#5 2046#12) := rfl
theorem test_decode_sltiu : decode (0b011111111110#12 ++ 0b00110#5 ++ 0b011#3 ++ 0b00101#5 ++ 0b0010011#7) = .ok (.sltiu 5#5 6#5 2046#12) := rfl
theorem test_decode_xori : decode (0b011111111110#12 ++ 0b00110#5 ++ 0b100#3 ++ 0b00101#5 ++ 0b0010011#7) = .ok (.xori 5#5 6#5 2046#12) := rfl
theorem test_decode_ori : decode (0b011111111110#12 ++ 0b00110#5 ++ 0b110#3 ++ 0b00101#5 ++ 0b0010011#7) = .ok (.ori 5#5 6#5 2046#12) := rfl
theorem test_decode_andi : decode (0b011111111110#12 ++ 0b00110#5 ++ 0b111#3 ++ 0b00101#5 ++ 0b0010011#7) = .ok (.andi 5#5 6#5 2046#12) := rfl
theorem test_decode_slli : decode (0b0000000#7 ++ 0b10001#5 ++ 0b00110#5 ++ 0b001#3 ++ 0b00101#5 ++ 0b0010011#7) = .ok (.slli 5#5 6#5 17#5) := rfl
theorem test_decode_srli : decode (0b0000000#7 ++ 0b10001#5 ++ 0b00110#5 ++ 0b101#3 ++ 0b00101#5 ++ 0b0010011#7) = .ok (.srli 5#5 6#5 17#5) := rfl
theorem test_decode_srai : decode (0b0100000#7 ++ 0b10001#5 ++ 0b00110#5 ++ 0b101#3 ++ 0b00101#5 ++ 0b0010011#7) = .ok (.srai 5#5 6#5 17#5) := rfl
theorem test_decode_add : decode (0b0000000#7 ++ 0b00111#5 ++ 0b00110#5 ++ 0b000#3 ++ 0b00101#5 ++ 0b0110011#7) = .ok (.add 5#5 6#5 7#5) := rfl
theorem test_decode_sub : decode (0b0100000#7 ++ 0b00111#5 ++ 0b00110#5 ++ 0b000#3 ++ 0b00101#5 ++ 0b0110011#7) = .ok (.sub 5#5 6#5 7#5) := rfl
theorem test_decode_sll : decode (0b0000000#7 ++ 0b00111#5 ++ 0b00110#5 ++ 0b001#3 ++ 0b00101#5 ++ 0b0110011#7) = .ok (.sll 5#5 6#5 7#5) := rfl
theorem test_decode_slt : decode (0b0000000#7 ++ 0b00111#5 ++ 0b00110#5 ++ 0b010#3 ++ 0b00101#5 ++ 0b0110011#7) = .ok (.slt 5#5 6#5 7#5) := rfl
theorem test_decode_sltu : decode (0b0000000#7 ++ 0b00111#5 ++ 0b00110#5 ++ 0b011#3 ++ 0b00101#5 ++ 0b0110011#7) = .ok (.sltu 5#5 6#5 7#5) := rfl
theorem test_decode_xor : decode (0b0000000#7 ++ 0b00111#5 ++ 0b00110#5 ++ 0b100#3 ++ 0b00101#5 ++ 0b0110011#7) = .ok (.xor 5#5 6#5 7#5) := rfl
theorem test_decode_srl : decode (0b0000000#7 ++ 0b00111#5 ++ 0b00110#5 ++ 0b101#3 ++ 0b00101#5 ++ 0b0110011#7) = .ok (.srl 5#5 6#5 7#5) := rfl
theorem test_decode_sra : decode (0b0100000#7 ++ 0b00111#5 ++ 0b00110#5 ++ 0b101#3 ++ 0b00101#5 ++ 0b0110011#7) = .ok (.sra 5#5 6#5 7#5) := rfl
theorem test_decode_or : decode (0b0000000#7 ++ 0b00111#5 ++ 0b00110#5 ++ 0b110#3 ++ 0b00101#5 ++ 0b0110011#7) = .ok (.or 5#5 6#5 7#5) := rfl
theorem test_decode_and : decode (0b0000000#7 ++ 0b00111#5 ++ 0b00110#5 ++ 0b111#3 ++ 0b00101#5 ++ 0b0110011#7) = .ok (.and 5#5 6#5 7#5) := rfl
theorem test_decode_mret : decode (0b0011000#7 ++ 0b00010#5 ++ 0b00000#5 ++ 0b000#3 ++ 0b00000#5 ++ 0b1110011#7) = .ok .mret := rfl

/-! ### One step of each instruction (95_test_vectors.md V-UPPER to V-OP) -/

theorem test_lui : regAfter (sample 0x100#32 0x123452B7#32 0x0#32 0x0#32 0x0#32) 5#5 = some (0x12345000#32, 0x104#32) := by decide
theorem test_auipc : regAfter (sample 0x100#32 0x00001317#32 0x0#32 0x0#32 0x0#32) 6#5 = some (0x00001100#32, 0x104#32) := by decide
theorem test_auipc_wraps : regAfter (sample 0xFFC#32 0xFFFFF397#32 0x0#32 0x0#32 0x0#32) 7#5 = some (0xFFFFFFFC#32, 0x1000#32) := by decide
theorem test_jal : regAfter (sample 0x20#32 0x010000EF#32 0x0#32 0x0#32 0x0#32) 1#5 = some (0x00000024#32, 0x30#32) := by decide
theorem test_jal_misaligned : faultOf (sample 0x20#32 0x002000EF#32 0x0#32 0x0#32 0x0#32) = some (.misalignedTarget 0x22#32 0x20#32) := by decide
theorem test_jalr_same_register : regAfter (sample 0x100#32 0x008282E7#32 0x200#32 0x0#32 0x0#32) 5#5 = some (0x00000104#32, 0x208#32) := by decide
theorem test_jalr_keeps_bit_zero : faultOf (sample 0x100#32 0x001280E7#32 0x201#32 0x0#32 0x0#32) = some (.misalignedTarget 0x202#32 0x100#32) := by decide
theorem test_beq_taken : regAfter (sample 0x100#32 0x00730663#32 0x0#32 0x5#32 0x5#32) 0#5 = some (0x00000000#32, 0x10C#32) := by decide
theorem test_beq_not_taken : regAfter (sample 0x100#32 0x00730663#32 0x0#32 0xFFFFFFFF#32 0x1#32) 0#5 = some (0x00000000#32, 0x104#32) := by decide
theorem test_bne_taken : regAfter (sample 0x100#32 0x00731663#32 0x0#32 0xFFFFFFFF#32 0x1#32) 0#5 = some (0x00000000#32, 0x10C#32) := by decide
theorem test_bne_not_taken : regAfter (sample 0x100#32 0x00731663#32 0x0#32 0x5#32 0x5#32) 0#5 = some (0x00000000#32, 0x104#32) := by decide
theorem test_blt_taken : regAfter (sample 0x100#32 0x00734663#32 0x0#32 0x80000000#32 0x7FFFFFFF#32) 0#5 = some (0x00000000#32, 0x10C#32) := by decide
theorem test_blt_not_taken : regAfter (sample 0x100#32 0x00734663#32 0x0#32 0x1#32 0xFFFFFFFF#32) 0#5 = some (0x00000000#32, 0x104#32) := by decide
theorem test_bge_taken : regAfter (sample 0x100#32 0x00735663#32 0x0#32 0x5#32 0x5#32) 0#5 = some (0x00000000#32, 0x10C#32) := by decide
theorem test_bge_not_taken : regAfter (sample 0x100#32 0x00735663#32 0x0#32 0x80000000#32 0x7FFFFFFF#32) 0#5 = some (0x00000000#32, 0x104#32) := by decide
theorem test_bltu_taken : regAfter (sample 0x100#32 0x00736663#32 0x0#32 0x1#32 0xFFFFFFFF#32) 0#5 = some (0x00000000#32, 0x10C#32) := by decide
theorem test_bltu_not_taken : regAfter (sample 0x100#32 0x00736663#32 0x0#32 0x80000000#32 0x7FFFFFFF#32) 0#5 = some (0x00000000#32, 0x104#32) := by decide
theorem test_bgeu_taken : regAfter (sample 0x100#32 0x00737663#32 0x0#32 0x80000000#32 0x7FFFFFFF#32) 0#5 = some (0x00000000#32, 0x10C#32) := by decide
theorem test_bgeu_not_taken : regAfter (sample 0x100#32 0x00737663#32 0x0#32 0x1#32 0xFFFFFFFF#32) 0#5 = some (0x00000000#32, 0x104#32) := by decide

/-- V-LOAD's memory: bytes 80 FF 7F 01 at 100. -/
def loads (w x6 : Word) : State :=
  { sample 0x10#32 w 0x55555555#32 x6 0#32 with
    mem := (sample 0x10#32 w 0#32 0#32 0#32).mem.writeLE 0x100 4 0x017FFF80#32 }

theorem test_lb : regAfter (loads 0x00030283#32 0x100#32) 5#5 = some (0xFFFFFF80#32, 0x14#32) := by decide
theorem test_lbu : regAfter (loads 0x00334283#32 0x100#32) 5#5 = some (0x00000001#32, 0x14#32) := by decide
theorem test_lh : regAfter (loads 0x00031283#32 0x100#32) 5#5 = some (0xFFFFFF80#32, 0x14#32) := by decide
theorem test_lhu : regAfter (loads 0x00035283#32 0x100#32) 5#5 = some (0x0000FF80#32, 0x14#32) := by decide
theorem test_lw : regAfter (loads 0x00032283#32 0x100#32) 5#5 = some (0x017FFF80#32, 0x14#32) := by decide
theorem test_lh_misaligned : faultOf (loads 0x00131283#32 0x100#32) = some (.misalignedAccess 0x101#32 .half) := by decide
theorem test_lb_gpio : faultOf (loads 0x00030283#32 0xD0000010#32) = some (.unsupportedDeviceAccess 0xD0000010#32 .byte .load) := by decide
theorem test_lw_gpio_dir : regAfter (loads 0x00032283#32 0xD0000000#32) 5#5 = some (0xFFFFFFFF#32, 0x14#32) := by decide

/-- V-STORE's memory: eight bytes AA at 100. -/
def stores (w x6 : Word) : State :=
  { sample 0x10#32 w 0x12345678#32 x6 0#32 with
    mem := ((sample 0x10#32 w 0#32 0#32 0#32).mem.writeLE 0x100 4 0xAAAAAAAA#32).writeLE 0x104 4 0xAAAAAAAA#32 }

theorem test_sb : bytesAfter (stores 0x005301A3#32 0x100#32) 0x100 5 = some [0xAA#8, 0xAA#8, 0xAA#8, 0x78#8, 0xAA#8] := by decide
theorem test_sh : bytesAfter (stores 0x00531123#32 0x100#32) 0x100 5 = some [0xAA#8, 0xAA#8, 0x78#8, 0x56#8, 0xAA#8] := by decide
theorem test_sw : bytesAfter (stores 0x00532023#32 0x100#32) 0x100 5 = some [0x78#8, 0x56#8, 0x34#8, 0x12#8, 0xAA#8] := by decide
theorem test_sw_zero_is_canonical : after (stores 0x00032023#32 0x100#32).runInstr (fun t => t.mem.wf && decide (t.mem.length = 7)) = some true := by decide
theorem test_sh_text_output : faultOf (stores 0x00531023#32 0xC0000000#32) = some (.unsupportedDeviceAccess 0xC0000000#32 .half .store) := by decide
theorem test_addi : regAfter (sample 0x10#32 0x00130293#32 0x0#32 0x7FFFFFFF#32 0x0#32) 5#5 = some (0x80000000#32, 0x14#32) := by decide
theorem test_slli : regAfter (sample 0x10#32 0x00331293#32 0x0#32 0x80000001#32 0x0#32) 5#5 = some (0x00000008#32, 0x14#32) := by decide
theorem test_slti : regAfter (sample 0x10#32 0xFFF32293#32 0x0#32 0xFFFFFFFE#32 0x0#32) 5#5 = some (0x00000001#32, 0x14#32) := by decide
theorem test_sltiu : regAfter (sample 0x10#32 0x80033293#32 0x0#32 0xFFFFF7FF#32 0x0#32) 5#5 = some (0x00000001#32, 0x14#32) := by decide
theorem test_xori : regAfter (sample 0x10#32 0x7FF34293#32 0x0#32 0xFFFFFFFF#32 0x0#32) 5#5 = some (0xFFFFF800#32, 0x14#32) := by decide
theorem test_srli : regAfter (sample 0x10#32 0x01F35293#32 0x0#32 0x80000010#32 0x0#32) 5#5 = some (0x00000001#32, 0x14#32) := by decide
theorem test_srai : regAfter (sample 0x10#32 0x40435293#32 0x0#32 0x80000010#32 0x0#32) 5#5 = some (0xF8000001#32, 0x14#32) := by decide
theorem test_ori : regAfter (sample 0x10#32 0x80036293#32 0x0#32 0x1#32 0x0#32) 5#5 = some (0xFFFFF801#32, 0x14#32) := by decide
theorem test_andi : regAfter (sample 0x10#32 0x80037293#32 0x0#32 0xFFFFFFFF#32 0x0#32) 5#5 = some (0xFFFFF800#32, 0x14#32) := by decide
theorem test_add : regAfter (sample 0x10#32 0x007302B3#32 0x0#32 0x80000000#32 0x80000000#32) 5#5 = some (0x00000000#32, 0x14#32) := by decide
theorem test_sub : regAfter (sample 0x10#32 0x407302B3#32 0x0#32 0x0#32 0x1#32) 5#5 = some (0xFFFFFFFF#32, 0x14#32) := by decide
theorem test_sll : regAfter (sample 0x10#32 0x007312B3#32 0x0#32 0x1#32 0x21#32) 5#5 = some (0x00000002#32, 0x14#32) := by decide
theorem test_slt : regAfter (sample 0x10#32 0x007322B3#32 0x0#32 0x80000000#32 0x7FFFFFFF#32) 5#5 = some (0x00000001#32, 0x14#32) := by decide
theorem test_sltu : regAfter (sample 0x10#32 0x007332B3#32 0x0#32 0x1#32 0xFFFFFFFF#32) 5#5 = some (0x00000001#32, 0x14#32) := by decide
theorem test_xor : regAfter (sample 0x10#32 0x007342B3#32 0x0#32 0xFF00FF00#32 0xFF00FF0#32) 5#5 = some (0xF0F0F0F0#32, 0x14#32) := by decide
theorem test_srl : regAfter (sample 0x10#32 0x007352B3#32 0x0#32 0x80000000#32 0xFFFFFFE4#32) 5#5 = some (0x08000000#32, 0x14#32) := by decide
theorem test_sra : regAfter (sample 0x10#32 0x407352B3#32 0x0#32 0x80000000#32 0x4#32) 5#5 = some (0xF8000000#32, 0x14#32) := by decide
theorem test_or : regAfter (sample 0x10#32 0x007362B3#32 0x0#32 0xFF00FF00#32 0xFF00FF0#32) 5#5 = some (0xFFF0FFF0#32, 0x14#32) := by decide
theorem test_and : regAfter (sample 0x10#32 0x007372B3#32 0x0#32 0xFF00FF00#32 0xFF00FF0#32) 5#5 = some (0x0F000F00#32, 0x14#32) := by decide
theorem test_add_to_x0_changes_no_register : after (sample 0x10#32 0x00730033#32 1#32 2#32 3#32).runInstr (fun t => decide (t.regs = (sample 0x10#32 0#32 1#32 2#32 3#32).regs)) = some true := by decide

/-! ### Interrupt entry and return (V-MRET), devices (V-TEXTIN, V-GPIO), reset (V-RESET) -/

/-- A state with a request of the text input up. -/
def asking (pc w : Word) (mepc : Word) (inIrq : Bool) : State :=
  { sample pc w 1#32 0#32 0#32 with ctrl := 0xC0#8, mepc := mepc, inIrq := inIrq }

/-- `pc`, `mepc` and `in_irq`. -/
def core3 (t : State) : Word × Word × Bool := (t.pc, t.mepc, t.inIrq)

theorem test_mret : after (asking 0x1C#32 0x30200073#32 0x38#32 true).runInstr core3 = some (0x38#32, 0x38#32, false) := by decide
theorem test_mret_misaligned : faultOf (asking 0x1C#32 0x30200073#32 0x42#32 true) = some (.misalignedTarget 0x42#32 0x1C#32) := by decide
theorem test_entry_after_addi : after ((asking 0x34#32 0x00128293#32 0#32 false).cycle .immediate) core3 = some (4#32, 0x38#32, true) := by decide
theorem test_entry_saves_jump_target : after ((asking 0x38#32 0xFFDFF06F#32 0#32 false).cycle .immediate) core3 = some (4#32, 0x34#32, true) := by decide
theorem test_no_entry_in_handler : after ((asking 0x10#32 0x00128293#32 0x38#32 true).cycle .anyBoundary) core3 = some (0x14#32, 0x38#32, true) := by decide
theorem test_no_entry_right_after_mret : after ((asking 0x1C#32 0x30200073#32 0x38#32 true).cycle .immediate) core3 = some (0x38#32, 0x38#32, false) := by decide
theorem test_fault_takes_no_interrupt : faultOf (asking 0x30#32 0#32 0#32 false) = some (.illegalInstruction 0#32 0x30#32) := by decide

/-- The first six rows of V-TEXTIN: 'A', 'B', acknowledge and enable, 'C'. -/
theorem test_text_input_sequence :
    (let s := (((State.reset.typeChar 0x41#8).typeChar 0x42#8).storeCtrl 0x80#8)
     let t := s.typeChar 0x43#8
     (s.ctrl, s.data, s.irqText, t.ctrl, t.data, t.irqText)) = (0x80#8, 0x42#8, false, 0xC0#8, 0x43#8, true) := by decide

/-- V-GPIO to the row 'pin 8 to 0'. -/
theorem test_gpio_sequence :
    (let s := ((State.reset.storeGpio 0xD0000000#32 0xFFFFFF00#32).storeGpio 0xD0000010#32 0x12345AA5#32).setPin 8 true
     let t := ((s.storeGpio 0xD0000004#32 0x100#32).setPin 9 true).setPin 8 false
     (s.val, s.rev, s.irqGpio, t.rev, t.fev, t.val, t.irqGpio)) =
      (0x1A5#32, 0x100#32, false, 0x300#32, 0x100#32, 0x2A5#32, true) := by decide

/-- V-GPIO: an output pin and a level that repeats change nothing. -/
theorem test_pin_without_edge :
    ((State.reset.storeGpio 0xD0000000#32 0xFFFFFF00#32).setPin 3 true).val = 0#32 ∧
    (State.reset.setPin 9 false).fev = 0#32 := by decide

theorem test_text_output : after (sample 0x10#32 0x00530023#32 0x12345641#32 0xC0000000#32 0#32).runInstr State.textOut = some [0x41#8] := by decide
theorem test_bitmap_pixel : pixelAddr 5 3 = 0xC65 ∧ pixelAddr 31 31 = 0xFFF ∧ pixelColour 0xE0#8 = (7#3, 0#3, 0#2) := by decide

/-- V-RESET, and the step at reset with nothing loaded (log 3). -/
theorem test_reset : State.reset.pc = 0#32 ∧ State.reset.dir = 0xFFFFFFFF#32 ∧ State.reset.irqRequest = false ∧
    faultOf State.reset = some (.illegalInstruction 0#32 0#32) := by decide

/-- The host's question on one word: a step at reset runs it. -/
theorem test_with_fetch_word : after (step (State.reset.withFetchWord 32 0x123452B7)) (fun t => t.x 5#5) = some 0x12345000#32 := rfl

/-! ### Hypotheses that are met: concrete states and operands for each statement that has hypotheses -/

/-- The sample state the witnesses use: at 10, x5 = 1, x6 an address, x7 = 7. -/
def wit (a : Word) : State := sample 0x10#32 0x00128293#32 1#32 a 7#32

theorem witness_decode_of_encode : WellFormed (.jal 0#5 (-1048576#21)) = true ∧ WellFormed (.beq 0#5 0#5 4094#13) = true ∧ WellFormed .mret = true := by decide
theorem witness_encode_of_decode : decode 0x302F8F73#32 = .ok .mret ∧ decode 0x80000063#32 = .ok (.beq 0#5 0#5 (-4096#13)) := ⟨rfl, rfl⟩
theorem witness_mask_and_match : 0x302F8F73#32 &&& 0xFFF0707F#32 = 0x30200073#32 ∧ 0xFFFFF0B7#32 &&& 0x0000007F#32 = 0x00000037#32 := by decide
theorem witness_immediate_bits : ∀ j ∈ [0, 1, 4, 5, 11, 12, 20, 31], j < 32 := by decide
/-- At the last word of memory. -/
theorem witness_step_runs :
    (let s := sample 0xFFC#32 0xFE512E23#32 0#32 0#32 0#32
     s.pc.toNat % 4 = 0 ∧ s.pc.toNat < 0x1000 ∧
     decodeBytes [s.mem.read s.pc.toNat, s.mem.read (s.pc.toNat + 1), s.mem.read (s.pc.toNat + 2), s.mem.read (s.pc.toNat + 3)]
       = .ok (.sw 2#5 5#5 (-4#12), [])) := ⟨rfl, by decide, rfl⟩
theorem witness_undecodable :
    (let s := sample 0xFFC#32 0x0000000F#32 0#32 0#32 0#32
     s.pc.toNat % 4 = 0 ∧ s.pc.toNat < 0x1000 ∧
     ∀ i, decode (wordOfBytes (s.mem.read s.pc.toNat) (s.mem.read (s.pc.toNat + 1)) (s.mem.read (s.pc.toNat + 2))
      (s.mem.read (s.pc.toNat + 3))) ≠ .ok i) :=
  ⟨rfl, by decide, fun _ h => nomatch (rfl : Except.error (DecodeError.noRow 0x0000000F#32) = decode 0x0000000F#32).trans h⟩
/-- The reset state at another `pc`. -/
def atPc (p : Word) : State := { State.reset with pc := p }
theorem witness_fetch_outside : [0x1000#32, 0xB0000000#32, 0xC0000000#32, 0xD0000010#32, 0xD0000014#32, 0xFFFFFFFC#32].all
    (fun p => decide ((atPc p).pc.toNat % 4 = 0 ∧ 0x1000 ≤ (atPc p).pc.toNat)) = true := by decide
/-- An aligned `pc`: the hypothesis of UpperImmediateResults, AddSubResults, LogicResults, ShiftResults, SetLessResults. -/
theorem witness_aligned_pc : (atPc 0x10#32).pc.toNat % 4 = 0 ∧ (atPc 0xFFFFFFFC#32).pc.toNat % 4 = 0 := by decide
theorem witness_upper_and_lower : (5#5 : RegIdx) ≠ 0#5 ∧ (wit 0#32).pc.toNat % 4 = 0 := by decide
theorem witness_jump : ((wit 0#32).pc.toInt + (-1048576#21 : BitVec 21).toInt) % 4 = 0 ∧
    (((wit 0xFFFFFFFE#32).x 6#5).toInt + (2#12 : BitVec 12).toInt) % 4 = 0 := by decide
theorem witness_jump_misaligned : ((wit 0#32).pc.toInt + (1048574#21 : BitVec 21).toInt) % 4 ≠ 0 ∧
    (((wit 0x25#32).x 6#5).toInt + (0#12 : BitVec 12).toInt) % 4 ≠ 0 := by decide
/-- Each branch taken and not taken (x5 is 1), at the least offset, which is a multiple of 4, and the greatest, which is not. -/
theorem witness_branch : (wit 0#32).pc.toNat % 4 = 0 ∧ (-4096#13 : BitVec 13).toInt % 4 = 0 ∧ (4094#13 : BitVec 13).toInt % 4 ≠ 0 ∧
    ((wit 1#32).x 5#5 = (wit 1#32).x 6#5 ∧ ¬(wit 2#32).x 5#5 = (wit 2#32).x 6#5) ∧
    ((wit 2#32).x 5#5 ≠ (wit 2#32).x 6#5 ∧ ¬(wit 1#32).x 5#5 ≠ (wit 1#32).x 6#5) ∧
    (((wit 2#32).x 5#5).toInt < ((wit 2#32).x 6#5).toInt ∧ ¬((wit 1#32).x 5#5).toInt < ((wit 1#32).x 6#5).toInt) ∧
    (((wit 1#32).x 6#5).toInt ≤ ((wit 1#32).x 5#5).toInt ∧ ¬((wit 2#32).x 6#5).toInt ≤ ((wit 2#32).x 5#5).toInt) ∧
    (((wit 0xFFFFFFFF#32).x 5#5).toNat < ((wit 0xFFFFFFFF#32).x 6#5).toNat ∧ ¬((wit 0#32).x 5#5).toNat < ((wit 0#32).x 6#5).toNat) ∧
    (((wit 0#32).x 6#5).toNat ≤ ((wit 0#32).x 5#5).toNat ∧ ¬((wit 0xFFFFFFFF#32).x 6#5).toNat ≤ ((wit 0xFFFFFFFF#32).x 5#5).toNat) := by
  decide
/-- A byte at FFF, a half word at FFE, a word at FFC: the last of each in memory (loads and stores). -/
theorem witness_memory_access : (wit 0#32).pc.toNat % 4 = 0 ∧ (wit 0#32).mem.wf = true ∧
    ((wit 0xFFF#32).loadAddr 6#5 0#12).toNat < 0x1000 ∧ ((wit 0xFFF#32).storeAddr 6#5 0#12).toNat % 1 = 0 ∧
    ((wit 0xFFE#32).loadAddr 6#5 0#12).toNat % 2 = 0 ∧ ((wit 0x1000#32).storeAddr 6#5 (-2#12)).toNat % 2 = 0 ∧
    ((wit 0xFFC#32).loadAddr 6#5 0#12).toNat % 4 = 0 ∧ ((wit 0x1000#32).storeAddr 6#5 (-4#12)).toNat % 4 = 0 ∧
    ((wit 0x1000#32).storeAddr 6#5 (-4#12)).toNat < 0x1000 := by decide
/-- Each device register is reached (text input, text output, the five of the GPIO; loads and stores). -/
theorem witness_byte_device_access : [0xB0000000#32, 0xB0000001#32, 0xC0000000#32].all
    (fun a => decide ((wit a).pc.toNat % 4 = 0 ∧ (wit a).loadAddr 6#5 0#12 = a ∧ (wit a).storeAddr 6#5 0#12 = a)) = true := by decide
theorem witness_gpio_access : [0xD0000000#32, 0xD0000004#32, 0xD0000008#32, 0xD000000C#32, 0xD0000010#32].all
    (fun a => decide ((wit a).pc.toNat % 4 = 0 ∧ (wit a).loadAddr 6#5 0#12 = a ∧ (wit a).storeAddr 6#5 0#12 = a)) = true := by decide
theorem witness_access_misaligned : ∀ p ∈ [(1#32, AccessSize.half), (0xFFE#32, .word), (0xD0000013#32, .word), (0xFFFFFFFF#32, .half)],
    (wit p.1).loadAddr 6#5 0#12 = p.1 ∧ (wit p.1).storeAddr 6#5 0#12 = p.1 ∧ p.1.toNat % p.2.bytes ≠ 0 := by decide
theorem witness_access_unmapped : ∀ p ∈ [(0x1000#32, AccessSize.byte), (0xAFFFFFFC#32, .word), (0xB0000002#32, .half), (0xBFFFFFFF#32, .byte),
      (0xC0000001#32, .byte), (0xCFFFFFFE#32, .half), (0xD0000014#32, .word), (0xFFFFFFFF#32, .byte)],
    (wit p.1).loadAddr 6#5 0#12 = p.1 ∧ (wit p.1).storeAddr 6#5 0#12 = p.1 ∧ p.1.toNat % p.2.bytes = 0 ∧ 0x1000 ≤ p.1.toNat ∧
    p.1 ≠ 0xB0000000#32 ∧ p.1 ≠ 0xB0000001#32 ∧ p.1 ≠ 0xC0000000#32 ∧ ¬(0xD0000000 ≤ p.1.toNat ∧ p.1.toNat < 0xD0000014) := by decide
theorem witness_load_unsupported : ∀ p ∈ [(0xB0000000#32, AccessSize.word), (0xB0000000#32, .half), (0xC0000000#32, .half),
      (0xD0000000#32, .byte), (0xD0000013#32, .byte), (0xD0000012#32, .half)],
    (wit p.1).loadAddr 6#5 0#12 = p.1 ∧ p.1.toNat % p.2.bytes = 0 ∧
    ((p.2 ≠ .byte ∧ (p.1 = 0xB0000000#32 ∨ p.1 = 0xB0000001#32 ∨ p.1 = 0xC0000000#32)) ∨
     (p.2 ≠ .word ∧ 0xD0000000 ≤ p.1.toNat ∧ p.1.toNat < 0xD0000014)) := by decide
theorem witness_store_unsupported : ∀ p ∈ [(0xB0000001#32, AccessSize.byte), (0xB0000000#32, .word), (0xC0000000#32, .half),
      (0xD0000000#32, .byte), (0xD0000013#32, .byte), (0xD0000012#32, .half)],
    (wit p.1).storeAddr 6#5 0#12 = p.1 ∧ p.1.toNat % p.2.bytes = 0 ∧
    (p.1 = 0xB0000001#32 ∨ (p.2 ≠ .byte ∧ (p.1 = 0xB0000000#32 ∨ p.1 = 0xC0000000#32)) ∨
     (p.2 ≠ .word ∧ 0xD0000000 ≤ p.1.toNat ∧ p.1.toNat < 0xD0000014)) := by decide
/-- The spare bits of `ctrl` too read the same twice. -/
theorem witness_loads_idempotent : Instr.isStore (.lb 5#5 6#5 0#12) = false ∧
    (∃ t, exec (.lb 5#5 6#5 0#12) (wit 0xC0000000#32) = .next t) ∧ (0xB0000000#32 : Word) ≠ 0xC0000000#32 ∧
    ∃ v s', (wit 0xC0000000#32).memRead 0xB0000000#32 .byte = .ok (v, s') := ⟨rfl, ⟨_, rfl⟩, by decide, ⟨_, _, rfl⟩⟩
/-- A word stored at FFC (x7 is 7); x6 finds its last byte and its upper half word. -/
theorem witness_store_then_load : (wit 0xFFC#32).mem.wf = true ∧ (5#5 : RegIdx) ≠ 0#5 ∧
    ((wit 0xFFC#32).storeAddr 6#5 0#12).toNat < 0x1000 ∧
    after (exec (.sw 6#5 7#5 0#12) (wit 0xFFC#32)) (fun t => ((t.loadAddr 6#5 3#12).toNat, (t.loadAddr 6#5 2#12).toNat)) =
      some (0xFFC + 3, 0xFFC + 2 * 1) ∧
    after (exec (.sh 6#5 7#5 2#12) (wit 0xFFC#32)) (fun t => (t.loadAddr 6#5 3#12).toNat) = some (0xFFE + 1) := by decide
theorem witness_store_then_fetch : (wit 0xFFC#32).mem.wf = true ∧ ((wit 0xFFC#32).storeAddr 6#5 0#12).toNat < 0x1000 ∧
    ∃ t, exec (.sw 6#5 7#5 0#12) (wit 0xFFC#32) = .next t ∧
      ∃ u : State, u.mem = t.mem ∧ u.pc = (wit 0xFFC#32).storeAddr 6#5 0#12 :=
  ⟨by decide, by decide, _, rfl, { State.reset with mem := _, pc := _ }, rfl, rfl⟩
theorem witness_not_a_store : Instr.isStore (.lw 5#5 6#5 0#12) = false ∧ ∃ t, exec (.lw 5#5 6#5 0#12) (wit 0xD0000008#32) = .next t :=
  ⟨rfl, _, rfl⟩
/-- A destination x0, and no destination at all. -/
theorem witness_zero_register : (Instr.rd? (.add 0#5 6#5 7#5) = some 0#5 ∧ ∃ t, exec (.add 0#5 6#5 7#5) (wit 9#32) = .next t) ∧
    (Instr.rd? (.sw 6#5 7#5 0#12) = none ∧ ∃ t, exec (.sw 6#5 7#5 0#12) (wit 0x100#32) = .next t) :=
  ⟨⟨rfl, _, rfl⟩, rfl, _, rfl⟩
theorem witness_unnamed_register : Instr.rd? (.sw 6#5 7#5 0#12) ≠ some 31#5 ∧ 31#5 ∉ Instr.sources (.sw 6#5 7#5 0#12) := by decide
theorem witness_mepc : Instr.lw 5#5 6#5 0#12 ≠ .mret ∧ (∃ t, exec (.lw 5#5 6#5 0#12) (wit 0x100#32) = .next t) ∧
    ∃ t, exec .mret (asking 0x1C#32 0x30200073#32 0x38#32 true) = .next t := ⟨by decide, ⟨_, rfl⟩, _, rfl⟩

/-! The interrupt -/

theorem witness_immediate_entry : ∃ t, (asking 0x34#32 0x00128293#32 0#32 false).runInstr = .next t ∧
    (asking 0x34#32 0x00128293#32 0#32 false).inIrq = false ∧ t.irqRequest = true := ⟨_, rfl, rfl, rfl⟩
theorem witness_after_mret : ∃ t, (asking 0x1C#32 0x30200073#32 0x38#32 true).runInstr = .next t ∧
    (asking 0x1C#32 0x30200073#32 0x38#32 true).inIrq = true ∧ t.inIrq = false := ⟨_, rfl, rfl, rfl⟩
/-- Under both policies, since neither is named. -/
theorem witness_enters_or_goes_on : ∃ t, (asking 0x38#32 0xFFDFF06F#32 0#32 false).runInstr = .next t ∧ t.irqRequest = true ∧
    t.inIrq = false := ⟨_, rfl, rfl, rfl⟩
/-- No request; and a request inside a handler. -/
theorem witness_not_eligible : (∃ t, (wit 0#32).runInstr = .next t ∧ t.irqRequest = false) ∧
    (∃ t, (asking 0x34#32 0x00128293#32 0#32 true).runInstr = .next t ∧ t.inIrq = true) := ⟨⟨_, rfl, rfl⟩, _, rfl, rfl⟩
theorem witness_no_nesting : (asking 0x34#32 0x00128293#32 0#32 true).inIrq = true ∧
    (asking 0x34#32 0x00128293#32 0#32 true).fetch = .ok 0x00128293#32 ∧ decode 0x00128293#32 ≠ .ok .mret ∧
    ∃ u, step (asking 0x34#32 0x00128293#32 0#32 true) = .next u := ⟨rfl, rfl, by decide, _, rfl⟩
theorem witness_mret : (asking 0x1C#32 0x30200073#32 0x38#32 true).mepc.toNat % 4 = 0 ∧
    (asking 0x1C#32 0x30200073#32 0x42#32 false).mepc.toNat % 4 ≠ 0 := by decide
theorem witness_return : ∃ t, exec (.addi 5#5 5#5 1#12) (wit 0#32) = .next t ∧ ∃ h : State, h.mepc = t.takeInterrupt.mepc :=
  ⟨_, rfl, State.takeInterrupt _, rfl⟩
/-- A run with a request: entry from the instruction at 0, then the handler's endless loop at 4. -/
def loopRun (k : Nat) : State :=
  let s := { State.reset with ctrl := 0xC0#8, mem := (Memory.writeLE [] 0 4 0x0000006F#32).writeLE 4 4 0x0000006F#32 }
  match k with
  | 0 => s
  | _ + 1 => { s with mepc := 0#32, pc := 4#32, inIrq := true, episode := 1 }
theorem loop_stays : (loopRun 1).hostTurn.cycle .immediate = .next (loopRun 1) := rfl
theorem witness_request_is_honoured : (∀ k, (loopRun k).hostTurn.cycle .immediate = .next (loopRun (k + 1))) ∧
    (loopRun 0).irqRequest = true ∧ (loopRun 0).inIrq = false :=
  ⟨fun k => match k with | 0 => rfl | _ + 1 => loop_stays, rfl, rfl⟩
/-- The host acts while a request is up. -/
theorem witness_host_acts : ({ asking 0#32 0#32 0#32 false with inputs := [[.typeChar 0x41#8, .setPin 31 true]] }).irqRequest = true := rfl
theorem witness_pin : ∀ j ∈ [0, 31], j < 32 := by decide
/-- An event bit is up and a load runs. -/
theorem witness_event_bits :
    (let s := { wit 0xD0000008#32 with rev := 0x80000001#32 }
     s.fetch = .ok 0x00128293#32 ∧ decode 0x00128293#32 = .ok (.addi 5#5 5#5 1#12) ∧ Instr.isStore (.addi 5#5 5#5 1#12) = false ∧
     ∃ u, step s = .next u) := ⟨rfl, rfl, rfl, _, rfl⟩
/-- A step completes: the hypothesis of TextOutputOnlyGrows and MepcStaysAligned. -/
theorem witness_step : ∃ u, step (sample 0x10#32 0x00530023#32 0x41#32 0xC0000000#32 0#32) = .next u := ⟨_, rfl⟩
theorem witness_bitmap : regionOf 0xC00#32 = some .bitmapRam ∧ regionOf 0xFFF#32 = some .bitmapRam := by decide
/-- The last register, the last byte of memory, the first address after it, a bit of `ctrl`. -/
theorem witness_reset : (31#5 : RegIdx) ≠ 0#5 ∧ 0xFFF < 0x1000 ∧ 0x1000 ≤ 0x1000 ∧ 5 < 6 := by decide
/-- The last of several bytes for one address wins; a byte outside memory is dropped; elsewhere the launch's own byte (R45). -/
theorem test_launch_memory :
    (let m := (Memory.fill 0 [1#8, 2#8, 0#8, 4#8]).load [(1, 7#8), (3, 9#8), (3, 0#8), (0x1000, 5#8)]
     [m.read 0, m.read 1, m.read 2, m.read 3, m.read 0x1000, m.read 4]) = [1#8, 7#8, 0#8, 0#8, 0#8, 0#8] := by decide
theorem wit_inv : (wit 0x100#32).Inv := ⟨by decide, by decide, rfl, by decide, by decide⟩
theorem witness_step_keeps_invariant : (wit 0x100#32).Inv ∧ ∃ u, step (wit 0x100#32) = .next u := ⟨wit_inv, _, rfl⟩
/-- A launch and a step that completes. -/
theorem witness_pc_aligned : (∃ l, Reaches (State.launch l) State.reset) ∧ ∃ u, step (wit 0#32) = .next u :=
  ⟨⟨Launch.named, State.reset_eq_launch ▸ .refl _⟩, _, rfl⟩
theorem witness_terminal :
    (let s := sample 0x14#32 0x0000006F#32 0#32 0#32 0#32
     s.Inv ∧ s.Terminal ∧ s.inputs = []) :=
  ⟨⟨by decide, by decide, rfl, by decide, by decide⟩, ⟨0x0000006F#32, rfl, rfl, rfl⟩, rfl⟩

end Sys2Proof.Tests
end

section
/-! PROOFS. What a step is: the instruction the word at `pc` decodes to, and the interrupt test (spec/00_scope.md R14);
no instruction and no step is refused (R2). -/

namespace Sys2Proof.Machine

open Sys2Proof

/-! ### The core's part of a step, by what fetch and decode answer (00_scope.md R14 (a) to (c)) -/

theorem State.runInstr_of_fetch_error {s : State} {f : Fault} (hf : s.fetch = .error f) : s.runInstr = .fault f := by
  simp [State.runInstr, hf]

theorem State.runInstr_of_decode_error {s : State} {w : Word} {e : DecodeError} (hf : s.fetch = .ok w)
    (hd : decode w = .error e) : s.runInstr = .fault (.illegalInstruction w s.pc) := by
  simp [State.runInstr, hf, hd]

theorem State.runInstr_of_decode {s : State} {w : Word} {i : Instr} (hf : s.fetch = .ok w) (hd : decode w = .ok i) :
    s.runInstr = exec i s := by
  simp [State.runInstr, hf, hd]

/-- The host's turn moves neither `pc` nor memory, so the core fetches what stood there before it (20_memory.md R80). -/
@[simp] theorem State.hostTurn_fetch (s : State) : s.hostTurn.fetch = s.fetch :=
  State.fetch_congr s.hostTurn_pc s.hostTurn_mem

/-- A step whose fetched word decodes runs that instruction where the host leaves the state (00_scope.md R14). -/
theorem step_of_decode {s : State} {w : Word} {i : Instr} (hf : s.fetch = .ok w) (hd : decode w = .ok i) :
    step s = mapNext (boundary Config.irqPolicy s.hostTurn) (exec i s.hostTurn) := by
  rw [step, State.cycle, State.runInstr_of_decode (s.hostTurn_fetch.trans hf) hd]

/-! ### No shape the instruction families share is refused -/

theorem State.advance_not_refused (s : State) (r : Refusal) : s.advance ≠ .refused r := s.goTo_not_refused _ r

theorem State.writeBack_not_refused (s : State) (rd : RegIdx) (v : Word) (r : Refusal) :
    s.writeBack rd v ≠ .refused r := State.advance_not_refused _ r

theorem State.linkAndGo_not_refused (s : State) (rd : RegIdx) (t : Word) (r : Refusal) :
    s.linkAndGo rd t ≠ .refused r := State.goTo_not_refused _ t r

theorem State.branchIf_not_refused (s : State) (c : Bool) (off : BitVec 13) (r : Refusal) :
    s.branchIf c off ≠ .refused r := by
  unfold State.branchIf
  split
  · exact s.goTo_not_refused _ r
  · exact s.advance_not_refused r

theorem State.loadInto_not_refused (s : State) (rd : RegIdx) (a : Word) (size : AccessSize) (widen : Word → Word)
    (r : Refusal) : s.loadInto rd a size widen ≠ .refused r := by
  unfold State.loadInto
  split
  · simp
  · exact State.writeBack_not_refused _ rd _ r

theorem State.storeFrom_not_refused (s : State) (rs2 : RegIdx) (a : Word) (size : AccessSize) (r : Refusal) :
    s.storeFrom rs2 a size ≠ .refused r := by
  unfold State.storeFrom
  split
  · simp
  · exact State.advance_not_refused _ r

/-! ### No instruction and no step is refused -/

/-- Every instruction has one of the shared shapes, none of which is refused. -/
theorem exec_not_refused (i : Instr) (s : State) (r : Refusal) : exec i s ≠ .refused r := by
  cases i
  case jal | jalr => exact State.linkAndGo_not_refused _ _ _ r
  case beq | bne | blt | bge | bltu | bgeu => exact State.branchIf_not_refused _ _ _ r
  case lb | lh | lw | lbu | lhu => exact State.loadInto_not_refused _ _ _ _ _ r
  case sb | sh | sw => exact State.storeFrom_not_refused _ _ _ _ r
  case mret => exact State.goTo_not_refused _ _ r
  all_goals exact State.writeBack_not_refused _ _ _ r

theorem State.runInstr_not_refused (s : State) (r : Refusal) : s.runInstr ≠ .refused r := by
  cases hf : s.fetch with
  | error f => simp [State.runInstr_of_fetch_error hf]
  | ok w =>
    cases hd : decode w with
    | error e => simp [State.runInstr_of_decode_error hf hd]
    | ok i => rw [State.runInstr_of_decode hf hd]; exact exec_not_refused i s r

/-- A mapped result is refused exactly when the result is. -/
theorem mapNext_eq_refused {f : State → State} {o : Result} {r : Refusal} :
    mapNext f o = .refused r ↔ o = .refused r := by
  cases o <;> simp

theorem step_not_refused (s : State) (r : Refusal) : step s ≠ .refused r := fun h =>
  s.hostTurn.runInstr_not_refused r (mapNext_eq_refused.mp h)

/-! ### The statements -/

/-- Settles O10: each instruction ends in a shape that only completes or faults, and the rest of a step adds no
refusal. -/
theorem nothingIsRefused : Obligations.NothingIsRefused :=
  fun s r => ⟨step_not_refused s r, fun i => exec_not_refused i s r⟩

/-- Settles O7: an aligned `pc` in memory fetches the word of its four bytes, before and after the host's turn. -/
theorem stepRunsDecodedInstruction : Obligations.StepRunsDecodedInstruction := by
  intro s i ha hm hd
  have hfetch := State.fetch_ram ((isAligned4_iff s.pc).mpr ha) hm
  exact ⟨s.hostTurn_pc, s.hostTurn_mem, step_of_decode hfetch ((decodeBytes_four _ _ _ _ [] i).mp hd)⟩

end Sys2Proof.Machine
end

section
/-! PROOFS. The registers of the core and the state a step leaves (spec/10_state.md): what an instruction and the boundary
keep of each part of the state, the invariant of a step, and the registers an instruction does not name. -/

namespace Sys2Proof.Machine

open Sys2Proof

/-! ### What a store leaves alone -/

theorem State.memWrite_regs {s s' : State} {a v : Word} {size : AccessSize} (h : s.memWrite a size v = .ok s') :
    s'.regs = s.regs := by
  obtain ⟨r, -, rfl⟩ := State.memWrite_ok h
  exact (s.storeTo_core r a size v).1

theorem State.memWrite_mepc {s s' : State} {a v : Word} {size : AccessSize} (h : s.memWrite a size v = .ok s') :
    s'.mepc = s.mepc := by
  obtain ⟨r, -, rfl⟩ := State.memWrite_ok h
  obtain ⟨-, -, hmepc, -⟩ := s.storeTo_core r a size v
  exact hmepc

theorem State.memWrite_inIrq {s s' : State} {a v : Word} {size : AccessSize} (h : s.memWrite a size v = .ok s') :
    s'.inIrq = s.inIrq := by
  obtain ⟨r, -, rfl⟩ := State.memWrite_ok h
  obtain ⟨-, -, -, hinIrq, -⟩ := s.storeTo_core r a size v
  exact hinIrq

/-- Of the five regions only the text output's register lets a store reach the stream, with one byte (60_exceptions.md R257). -/
theorem State.memWrite_textOut {s s' : State} {a v : Word} {size : AccessSize} (h : s.memWrite a size v = .ok s') :
    s'.textOut = s.textOut ∨ ∃ b, s'.textOut = s.textOut ++ [b] := by
  obtain ⟨r, -, rfl⟩ := State.memWrite_ok h
  cases r with
  | textOutput => exact .inr ⟨v.setWidth 8, rfl⟩
  | ram | bitmapRam | textInput => exact .inl rfl
  | gpio => exact .inl (s.storeGpio_textOut a v)

/-! ### What a completed instruction leaves, part by part -/

/-- Every next address is a multiple of 4 (10_state.md R36). -/
theorem exec_pc_aligned {i : Instr} {s t : State} (h : exec i s = .next t) : isAligned4 t.pc = true := (exec_next h).1

theorem State.setX_regs_congr {s s' : State} (h : s'.regs = s.regs) (rd : RegIdx) (v : Word) :
    (s'.setX rd v).regs = (s.setX rd v).regs := by
  unfold State.setX
  split <;> simp [h]

/-- A completed instruction writes at most its destination register (10_state.md R49). -/
theorem exec_regs {i : Instr} {s t : State} (h : exec i s = .next t) :
    (∃ rd v, i.rd? = some rd ∧ t.regs = (s.setX rd v).regs) ∨ (i.rd? = none ∧ t.regs = s.regs) := by
  obtain ⟨-, ⟨rd, v, k, hrd, -, -, ht⟩ | ⟨hrd, -, -, ht⟩ | ⟨hrd, -, a, size, v, s', hw, ht⟩ | ⟨rfl, ht⟩⟩ := exec_next h
  · refine .inl ⟨rd, v, hrd, ?_⟩
    rw [ht]
    exact State.setX_regs_congr (s := s) (s' := { s with textReads := k }) rfl rd v
  · exact .inr ⟨hrd, by rw [ht]⟩
  · exact .inr ⟨hrd, by rw [ht]; exact (State.memWrite_regs hw :)⟩
  · exact .inr ⟨rfl, by rw [ht]⟩

/-- No instruction writes `mepc` (10_state.md R38). -/
theorem exec_mepc {i : Instr} {s t : State} (h : exec i s = .next t) : t.mepc = s.mepc := by
  obtain ⟨-, ⟨rd, v, k, -, -, -, ht⟩ | ⟨-, -, -, ht⟩ | ⟨-, -, a, size, v, s', hw, ht⟩ | ⟨-, ht⟩⟩ := exec_next h
  · rw [ht]; simp
  · rw [ht]
  · rw [ht]; exact (State.memWrite_mepc hw :)
  · rw [ht]

/-- Only MRET ends a handler (10_state.md R41). -/
theorem exec_inIrq {i : Instr} {s t : State} (h : exec i s = .next t) (hi : i ≠ .mret) : t.inIrq = s.inIrq := by
  obtain ⟨-, ⟨rd, v, k, -, -, -, ht⟩ | ⟨-, -, -, ht⟩ | ⟨-, -, a, size, v, s', hw, ht⟩ | ⟨hm, -⟩⟩ := exec_next h
  · rw [ht]; simp
  · rw [ht]
  · rw [ht]; exact (State.memWrite_inIrq hw :)
  · exact absurd hm hi

/-- MRET goes to `mepc` (47_system.md R220). -/
theorem exec_mret_pc {s t : State} (h : exec .mret s = .next t) : t.pc = s.mepc := by
  obtain ⟨-, rfl⟩ := State.goTo_next.mp h
  rfl

/-- A completed instruction keeps memory canonical and within RAM (20_memory.md R60). -/
theorem exec_mem {i : Instr} {s t : State} (h : exec i s = .next t) (hm : s.mem.wf = true ∧ s.mem.inRam = true) :
    t.mem.wf = true ∧ t.mem.inRam = true := by
  obtain ⟨-, ⟨rd, v, k, -, -, -, ht⟩ | ⟨-, -, -, ht⟩ | ⟨-, -, a, size, v, s', hw, ht⟩ | ⟨-, ht⟩⟩ := exec_next h
  · rw [ht]; simpa using hm
  · rw [ht]; exact hm
  · rw [ht]; exact (State.memWrite_mem hw hm.1 hm.2 :)
  · rw [ht]; exact hm

/-- A completed instruction appends at most one byte to the text output stream (60_exceptions.md R257). -/
theorem exec_textOut {i : Instr} {s t : State} (h : exec i s = .next t) :
    t.textOut = s.textOut ∨ ∃ b, t.textOut = s.textOut ++ [b] := by
  obtain ⟨-, ⟨rd, v, k, -, -, -, ht⟩ | ⟨-, -, -, ht⟩ | ⟨-, -, a, size, v, s', hw, ht⟩ | ⟨-, ht⟩⟩ := exec_next h
  · rw [ht]; simp
  · rw [ht]; exact .inl rfl
  · rw [ht]; exact (State.memWrite_textOut hw :)
  · rw [ht]; exact .inl rfl

/-- x[0]'s cell keeps its value under every instruction (10_state.md R32). -/
theorem exec_regs_zero {i : Instr} {s t : State} (h : exec i s = .next t) : t.regs[0] = s.regs[0] := by
  rcases exec_regs h with ⟨rd, v, -, ht⟩ | ⟨-, ht⟩ <;> simp only [ht]
  exact s.setX_regs_zero rd v

/-! ### What the boundary leaves of the interrupt state -/

/-- The boundary moves `pc` only to the handler's first address (60_exceptions.md R242). -/
theorem boundary_pc (p : IrqPolicy) (b a : State) :
    (boundary p b a).pc = a.pc ∨ (boundary p b a).pc = Config.irqVector := by
  rcases boundary_cases p b a with ⟨-, -, h⟩ | ⟨-, -, h⟩ | ⟨-, ⟨-, h⟩ | ⟨-, h⟩⟩ <;> simp [h]

theorem boundary_pc_aligned (p : IrqPolicy) (b : State) {a : State} (ha : isAligned4 a.pc = true) :
    isAligned4 (boundary p b a).pc = true := by
  rcases boundary_pc p b a with h | h <;> rw [h]
  · exact ha
  · rfl

/-- The boundary writes `mepc` only on entry, with the next address (60_exceptions.md R242). -/
theorem boundary_mepc (p : IrqPolicy) (b a : State) :
    (boundary p b a).mepc = a.mepc ∨ ((boundary p b a).mepc = a.pc ∧ (boundary p b a).pc = Config.irqVector) := by
  rcases boundary_cases p b a with ⟨-, -, h⟩ | ⟨-, -, h⟩ | ⟨-, ⟨-, h⟩ | ⟨-, h⟩⟩ <;> simp [h]

/-- Inside a handler the boundary is not eligible: nothing is entered (60_exceptions.md R244). -/
theorem boundary_of_inIrq (p : IrqPolicy) (b : State) {a : State} (ha : a.inIrq = true) :
    (boundary p b a).inIrq = true ∧ (boundary p b a).mepc = a.mepc := by
  have hne : a.isEligible = false := by simp [State.isEligible, ha]
  rcases boundary_cases p b a with ⟨he, -, -⟩ | ⟨he, -, -⟩ | ⟨-, ⟨-, h⟩ | ⟨-, h⟩⟩
  · simp [hne] at he
  · simp [hne] at he
  · rw [h]; exact ⟨ha, rfl⟩
  · rw [h]; exact ⟨ha, rfl⟩

/-- After the boundary the core waits only for a request it may still take, whatever it waited for before
(60_exceptions.md R240, R241). -/
theorem boundary_waiting (p : IrqPolicy) (b a : State) (hw : (boundary p b a).waited ≠ 0) :
    (boundary p b a).isEligible = true := by
  rcases boundary_cases p b a with ⟨-, -, h⟩ | ⟨he, -, h⟩ | ⟨-, ⟨h0, h⟩ | ⟨-, h⟩⟩ <;> rw [h] at hw ⊢
  · exact absurd (State.endWait_waited _) hw
  · exact he
  · exact absurd h0 hw
  · exact absurd (State.endWait_waited _) hw

/-! ### What a step leaves -/

/-- Every step ends at a multiple of 4 (10_state.md R35). -/
theorem step_pc_aligned {s u : State} (h : step s = .next u) : isAligned4 u.pc = true := by
  obtain ⟨w, i, t, -, -, he, rfl⟩ := step_next h
  exact boundary_pc_aligned _ _ (exec_pc_aligned he)

/-- Settles O56: the host's turn writes neither registers, `pc` nor memory; the instruction keeps memory's form and x[0] and
ends at a multiple of 4; and the boundary settles the waiting count afresh. -/
theorem stepKeepsInvariant : Obligations.StepKeepsInvariant := by
  intro s u hs h
  obtain ⟨w, i, t, -, -, he, rfl⟩ := step_next h
  obtain ⟨hwf, hram⟩ := exec_mem he (by simpa using ⟨hs.mem_wf, hs.mem_inRam⟩)
  have hx0 : t.regs[0] = 0#32 := (exec_regs_zero he).trans (by simpa using hs.x0)
  exact {
    mem_wf := by simpa using hwf
    mem_inRam := by simpa using hram
    x0 := by simpa using hx0
    pc_aligned := step_pc_aligned h
    waiting := boundary_waiting _ _ _ }

/-- Settles O57: at pc 0 the fetch is the word of the first four bytes, and every further state of a run is what a step
left. -/
theorem pcStartsAtZeroAndStaysAligned : Obligations.PcStartsAtZeroAndStaysAligned := by
  refine ⟨fun l => ⟨rfl, State.fetch_ram rfl (by simp [State.launch, Config.resetVector])⟩, ?_⟩
  rintro s t (⟨l, hr⟩ | h)
  · cases hr with
    | refl => rfl
    | tail _ h => exact (isAligned4_iff _).mp (step_pc_aligned h)
  · exact (isAligned4_iff _).mp (step_pc_aligned h)

/-- Settles O58: only the boundary writes `mepc`, with the next address, which is a multiple of 4. -/
theorem mepcStaysAligned : Obligations.MepcStaysAligned := by
  intro s u h
  obtain ⟨w, i, t, -, -, he, rfl⟩ := step_next h
  rcases boundary_mepc Config.irqPolicy s.hostTurn t with hkeep | ⟨hentry, -⟩
  · exact .inl (by simpa [exec_mepc he] using hkeep)
  · exact .inr (by rw [hentry]; exact (isAligned4_iff _).mp (exec_pc_aligned he))

/-- Settles O42: an instruction other than MRET keeps `in_irq`, and the boundary inside a handler enters nothing. -/
theorem noNesting : Obligations.NoNesting := by
  intro s u w hirq hf hd h
  obtain ⟨w', i, t, hf', hd', he, rfl⟩ := step_next h
  obtain rfl : w = w' := by simpa [hf] using hf'
  have hi : i ≠ .mret := by rintro rfl; exact hd hd'
  have ht : t.inIrq = true := by rw [exec_inIrq he hi, State.hostTurn_inIrq, hirq]
  obtain ⟨hin, hmepc⟩ := boundary_of_inIrq Config.irqPolicy s.hostTurn ht
  exact ⟨hin, by rw [hmepc, exec_mepc he, State.hostTurn_mepc]⟩

/-- Settles O50: neither the host nor the boundary touches the stream, and an instruction appends at most one byte. -/
theorem textOutputOnlyGrows : Obligations.TextOutputOnlyGrows := by
  intro s u h
  obtain ⟨w, i, t, -, -, he, rfl⟩ := step_next h
  simpa using exec_textOut he

/-- Settles O35: with destination x[0] the one register write is discarded, and with no destination there is none. -/
theorem zeroRegisterDiscards : Obligations.ZeroRegisterDiscards := by
  refine ⟨State.x_zero, fun i s t h hi => State.x_congr ?_⟩
  rcases exec_regs h with ⟨rd, v, hrd, ht⟩ | ⟨-, ht⟩
  · obtain rfl : rd = 0#5 := by simpa [hrd] using hi
    rw [ht, State.setX_zero]
  · exact ht

/-! ### Targets that are no multiple of 4 (10_state.md R36) -/

/-- A sign-extended field added to an address is the sum of the two's-complement integers, wrapped once (00_scope.md R10). -/
theorem add_sext {n : Nat} (a : Word) (v : BitVec n) : a + sext v = BitVec.ofInt 32 (a.toInt + v.toInt) := by
  rw [BitVec.ofInt_add, BitVec.ofInt_toInt]
  rfl

theorem isAligned4_ofInt (z : Int) : isAligned4 (BitVec.ofInt 32 z) = true ↔ z % 4 = 0 := by
  rw [isAligned4_iff, BitVec.toNat_ofInt]
  omega

/-- Ending an instruction at an integer target that is no multiple of 4 stops with `MisalignedTarget`. -/
theorem State.goTo_of_misaligned (s : State) {z : Int} (hz : z % 4 ≠ 0) :
    s.goTo (BitVec.ofInt 32 z) = .fault (.misalignedTarget (BitVec.ofInt 32 z) s.pc) :=
  State.goTo_fault.mpr ⟨Bool.eq_false_iff.mpr fun ha => hz ((isAligned4_ofInt z).mp ha), rfl⟩

/-- The fault of a jump names the jump's own address: the link written before it is discarded with the state. -/
theorem State.linkAndGo_of_misaligned (s : State) (rd : RegIdx) {z : Int} (hz : z % 4 ≠ 0) :
    s.linkAndGo rd (BitVec.ofInt 32 z) = .fault (.misalignedTarget (BitVec.ofInt 32 z) s.pc) := by
  rw [State.linkAndGo, State.goTo_of_misaligned _ hz, State.setX_pc]

/-- Settles O14: both jumps end in `linkAndGo` at the wrapped sum of base and offset. -/
theorem misalignedJumpFaults : Obligations.MisalignedJumpFaults := by
  intro s rd rs1 off imm
  constructor <;> intro hz
  · change s.linkAndGo rd (s.pc + sext off) = _
    rw [add_sext, s.linkAndGo_of_misaligned rd hz]
  · change s.linkAndGo rd (s.x rs1 + sext imm) = _
    rw [add_sext, s.linkAndGo_of_misaligned rd hz]

/-- The six branches with the condition under which each is taken (42_branches.md R161 to R166). -/
def branchConditions (s : State) (rs1 rs2 : RegIdx) (off : BitVec 13) : List (Instr × Prop) :=
  [(.beq rs1 rs2 off, s.x rs1 = s.x rs2), (.bne rs1 rs2 off, s.x rs1 ≠ s.x rs2),
    (.blt rs1 rs2 off, (s.x rs1).toInt < (s.x rs2).toInt), (.bge rs1 rs2 off, (s.x rs2).toInt ≤ (s.x rs1).toInt),
    (.bltu rs1 rs2 off, (s.x rs1).toNat < (s.x rs2).toNat), (.bgeu rs1 rs2 off, (s.x rs2).toNat ≤ (s.x rs1).toNat)]

/-- Each branch is `branchIf` on a flag that says its condition (42_branches.md R160). -/
theorem exec_branch {s : State} {rs1 rs2 : RegIdx} {off : BitVec 13} {p : Instr × Prop}
    (hp : p ∈ branchConditions s rs1 rs2 off) : ∃ c : Bool, (c = true ↔ p.2) ∧ exec p.1 s = s.branchIf c off := by
  simp only [branchConditions, List.mem_cons, List.not_mem_nil, or_false] at hp
  rcases hp with rfl | rfl | rfl | rfl | rfl | rfl
  · exact ⟨s.x rs1 == s.x rs2, beq_iff_eq, rfl⟩
  case inr.inl => exact ⟨s.x rs1 != s.x rs2, bne_iff_ne, rfl⟩
  case inr.inr.inl => exact ⟨ltSigned (s.x rs1) (s.x rs2), by simp [ltSigned], rfl⟩
  case inr.inr.inr.inl => exact ⟨!ltSigned (s.x rs1) (s.x rs2), by simp [ltSigned], rfl⟩
  case inr.inr.inr.inr.inl => exact ⟨ltUnsigned (s.x rs1) (s.x rs2), by simp [ltUnsigned], rfl⟩
  case inr.inr.inr.inr.inr => exact ⟨!ltUnsigned (s.x rs1) (s.x rs2), by simp [ltUnsigned], rfl⟩

/-- From an address that is a multiple of 4, an offset that is none leads to none. -/
theorem toInt_add_misaligned {a : Word} {z : Int} (ha : a.toNat % 4 = 0) (hz : z % 4 ≠ 0) : (a.toInt + z) % 4 ≠ 0 := by
  rw [BitVec.toInt_eq_toNat_cond]
  split <;> omega

/-- Settles O16: a taken branch ends at `pc` plus its offset, which is no multiple of 4 when the offset is none. -/
theorem misalignedBranchFaults : Obligations.MisalignedBranchFaults := by
  intro s rs1 rs2 off hpc hoff p hp htaken
  obtain ⟨c, hc, he⟩ := exec_branch (s := s) (off := off) hp
  rw [he, State.branchIf, if_pos (hc.mpr htaken), immB, add_sext]
  exact s.goTo_of_misaligned (toInt_add_misaligned hpc hoff)

/-! ### An instruction reads and writes only what it names (10_state.md R38, R49) -/

/-- A change of the general registers and of `mepc` and of nothing else. -/
def State.mapRegsMepc (g : Vector Word 32 → Vector Word 32) (k : Word → Word) (s : State) : State :=
  { s with regs := g s.regs, mepc := k s.mepc }

@[simp] theorem State.mapRegsMepc_pc (g : Vector Word 32 → Vector Word 32) (k : Word → Word) (s : State) :
    (s.mapRegsMepc g k).pc = s.pc := rfl

section
variable {g : Vector Word 32 → Vector Word 32} {k : Word → Word} {s : State}

theorem State.goTo_mapRegsMepc (t : Word) :
    (s.mapRegsMepc g k).goTo t = mapNext (State.mapRegsMepc g k) (s.goTo t) := by
  unfold State.goTo
  split <;> rfl

theorem State.branchIf_mapRegsMepc {c c' : Bool} (hc : c' = c) (off : BitVec 13) :
    (s.mapRegsMepc g k).branchIf c' off = mapNext (State.mapRegsMepc g k) (s.branchIf c off) := by
  subst hc
  unfold State.branchIf
  split <;> exact State.goTo_mapRegsMepc _

/-- What a load answers depends on neither. -/
theorem State.memRead_mapRegsMepc (a : Word) (size : AccessSize) :
    (s.mapRegsMepc g k).memRead a size = (s.memRead a size).map fun p => (p.1, p.2.mapRegsMepc g k) := by
  unfold State.memRead
  cases checkAccess a size .load with
  | error f => rfl
  | ok r => cases r <;> rfl

theorem State.storeGpio_mapRegsMepc (a v : Word) :
    (s.mapRegsMepc g k).storeGpio a v = (s.storeGpio a v).mapRegsMepc g k := by
  unfold State.storeGpio
  repeat' split
  all_goals rfl

/-- What a store does depends on neither. -/
theorem State.memWrite_mapRegsMepc (a : Word) (size : AccessSize) (v : Word) :
    (s.mapRegsMepc g k).memWrite a size v = (s.memWrite a size v).map (State.mapRegsMepc g k) := by
  unfold State.memWrite
  cases checkAccess a size .store with
  | error f => rfl
  | ok r =>
    cases r with
    | gpio => simp only [State.storeTo, State.storeGpio_mapRegsMepc]; rfl
    | ram | bitmapRam | textInput | textOutput => rfl

theorem State.storeFrom_mapRegsMepc {rs2 : RegIdx} {a a' : Word} (hx : (s.mapRegsMepc g k).x rs2 = s.x rs2) (ha : a' = a)
    (size : AccessSize) :
    (s.mapRegsMepc g k).storeFrom rs2 a' size = mapNext (State.mapRegsMepc g k) (s.storeFrom rs2 a size) := by
  subst ha
  unfold State.storeFrom
  rw [hx, State.memWrite_mapRegsMepc]
  cases s.memWrite a' size (s.x rs2) with
  | error f => rfl
  | ok s' => exact State.goTo_mapRegsMepc _

section
variable {rd : RegIdx}
  (hset : ∀ (t : State) (w : Word), (t.mapRegsMepc g k).setX rd w = (t.setX rd w).mapRegsMepc g k)
include hset

theorem State.writeBack_mapRegsMepc {v v' : Word} (hv : v' = v) :
    (s.mapRegsMepc g k).writeBack rd v' = mapNext (State.mapRegsMepc g k) (s.writeBack rd v) := by
  subst hv
  unfold State.writeBack
  rw [hset]
  exact State.goTo_mapRegsMepc _

theorem State.linkAndGo_mapRegsMepc {t t' : Word} (ht : t' = t) :
    (s.mapRegsMepc g k).linkAndGo rd t' = mapNext (State.mapRegsMepc g k) (s.linkAndGo rd t) := by
  subst ht
  unfold State.linkAndGo
  rw [hset]
  exact State.goTo_mapRegsMepc _

theorem State.loadInto_mapRegsMepc {a a' : Word} (ha : a' = a) (size : AccessSize) (widen : Word → Word) :
    (s.mapRegsMepc g k).loadInto rd a' size widen = mapNext (State.mapRegsMepc g k) (s.loadInto rd a size widen) := by
  subst ha
  unfold State.loadInto
  rw [State.memRead_mapRegsMepc]
  cases s.memRead a' size with
  | error f => rfl
  | ok p => exact State.writeBack_mapRegsMepc hset rfl

end

/-- An instruction commutes with every change of the registers and of `mepc` that its register write commutes with, that
leaves its sources as they read and, for MRET, leaves `mepc`: it touches no more of them (10_state.md R38, R49). -/
theorem exec_mapRegsMepc (i : Instr)
    (hset : ∀ rd, i.rd? = some rd → ∀ (t : State) (w : Word),
      (t.mapRegsMepc g k).setX rd w = (t.setX rd w).mapRegsMepc g k)
    (hx : ∀ r ∈ i.sources, (s.mapRegsMepc g k).x r = s.x r) (hmepc : i = .mret → k s.mepc = s.mepc) :
    exec i (s.mapRegsMepc g k) = mapNext (State.mapRegsMepc g k) (exec i s) := by
  cases i
  case lui | auipc => exact State.writeBack_mapRegsMepc (hset _ rfl) rfl
  case jal => exact State.linkAndGo_mapRegsMepc (hset _ rfl) rfl
  case jalr => exact State.linkAndGo_mapRegsMepc (hset _ rfl) (by rw [hx _ (.head _)])
  case beq | bne | blt | bge | bltu | bgeu =>
    exact State.branchIf_mapRegsMepc (by rw [hx _ (.head _), hx _ (.tail _ (.head _))]) _
  case lb | lh | lw | lbu | lhu =>
    exact State.loadInto_mapRegsMepc (hset _ rfl) (by rw [State.loadAddr, hx _ (.head _), State.loadAddr]) _ _
  case sb | sh | sw =>
    exact State.storeFrom_mapRegsMepc (hx _ (.tail _ (.head _))) (by rw [State.storeAddr, hx _ (.head _), State.storeAddr]) _
  case addi | slli | slti | sltiu | xori | srli | srai | ori | andi =>
    exact State.writeBack_mapRegsMepc (hset _ rfl) (by rw [hx _ (.head _)])
  case add | sub | sll | slt | sltu | xor | srl | sra | or | and =>
    exact State.writeBack_mapRegsMepc (hset _ rfl) (by rw [hx _ (.head _), hx _ (.tail _ (.head _))])
  case mret =>
    change State.goTo (State.mapRegsMepc g k { s with inIrq := false }) (k s.mepc) = _
    rw [hmepc rfl]
    exact State.goTo_mapRegsMepc _

end

/-- Register writes to different registers commute. -/
theorem State.setX_comm (s : State) {r q : RegIdx} (h : r ≠ q) (v w : Word) :
    (s.setX r v).setX q w = (s.setX q w).setX r v := by
  have hne : r.toNat ≠ q.toNat := fun he => h (BitVec.eq_of_toNat_eq he)
  unfold State.setX
  by_cases hr : r = 0#5 <;> by_cases hq : q = 0#5 <;> simp [hr, hq, Vector.set_comm _ _ hne]

/-- `State.setX` on the register file alone. -/
def setReg (r : RegIdx) (v : Word) (regs : Vector Word 32) : Vector Word 32 :=
  if r = 0#5 then regs else regs.set r.toNat v r.isLt

theorem State.mapRegsMepc_setReg (r : RegIdx) (v : Word) (s : State) : s.mapRegsMepc (setReg r v) id = s.setX r v := by
  unfold State.setX State.mapRegsMepc setReg
  split <;> rfl

/-- A write of an unnamed register before an instruction is the same write after it (10_state.md R49). -/
theorem exec_setX (i : Instr) (s : State) {r : RegIdx} (v : Word) (hrd : i.rd? ≠ some r) (hr : r ∉ i.sources) :
    exec i (s.setX r v) = mapNext (fun t => t.setX r v) (exec i s) := by
  have hwrite : State.mapRegsMepc (setReg r v) id = fun t => t.setX r v := funext (State.mapRegsMepc_setReg r v)
  have hcomm := exec_mapRegsMepc (g := setReg r v) (k := id) (s := s) i
  simp only [hwrite] at hcomm
  refine hcomm (fun rd hi t w => ?_) (fun q hq => ?_) fun _ => rfl
  · have hne : r ≠ rd := by rintro rfl; exact hrd hi
    exact t.setX_comm hne v w
  · have hne : q ≠ r := by rintro rfl; exact hr hq
    simp [State.x_setX, hne]

/-- An instruction other than MRET neither reads nor writes `mepc` (10_state.md R38). -/
theorem exec_set_mepc {i : Instr} (hi : i ≠ .mret) (s : State) (v : Word) :
    exec i { s with mepc := v } = mapNext (fun t => { t with mepc := v }) (exec i s) := by
  refine exec_mapRegsMepc (g := id) (k := fun _ => v) (s := s) i (fun rd _ t w => ?_) (fun r _ => rfl) fun h => absurd h hi
  unfold State.setX
  split <;> rfl

/-- Settles O36: what is read and written of the registers are the sources and the destination. -/
theorem unnamedRegistersUntouched : Obligations.UnnamedRegistersUntouched :=
  fun i s _ v hrd hr => ⟨exec_setX i s v hrd hr, fun p b => boundary_regs p b s⟩

/-- Settles O37: MRET goes to `mepc`, every other instruction commutes with a change of it, and of all writes only the
boundary's entry reaches it. -/
theorem mepcIsInterruptOnly : Obligations.MepcIsInterruptOnly :=
  ⟨fun _ s v hi => exec_set_mepc hi s v, fun _ _ => exec_mret_pc, fun _ _ _ => exec_mepc, boundary_mepc⟩

end Sys2Proof.Machine
end

section
/-! PROOFS. Memory and the address map (spec/20_memory.md): which region an address lies in, where an access stops, what a
load from memory answers, what a store to memory leaves, and that a load and a fetch see what was stored. -/

namespace Sys2Proof.Machine

open Sys2Proof

/-! ### The address map (20_memory.md R60) -/

/-- The map as the chain of ranges its table gives. -/
theorem regionOf_ranges (a : Word) :
    regionOf a = if a.toNat < 0xC00 then some .ram else if a.toNat < 0x1000 then some .bitmapRam
      else if a.toNat = 0xB0000000 ∨ a.toNat = 0xB0000001 then some .textInput
      else if a.toNat = 0xC0000000 then some .textOutput
      else if 0xD0000000 ≤ a.toNat ∧ a.toNat < 0xD0000014 then some .gpio else none := by
  simp only [← BitVec.toNat_inj (x := a), regionOf, Config.bitmapBase, Config.memSize, Config.ctrlAddr, Config.dataAddr,
    Config.textOutAddr, Config.dirAddr, Config.valAddr, BitVec.toNat_ofNat, Nat.reducePow, Nat.reduceMod, Nat.reduceAdd]

/-- Settles O51: each range of the map answers its own region, and the six ranges cover the address space without overlap. -/
theorem addressMap : Obligations.AddressMap := by
  intro a
  rw [regionOf_ranges]
  split_ifs <;> simp <;> omega

/-- Outside memory and every device register nothing is mapped. -/
theorem regionOf_eq_none {a : Word} (hmem : 0x1000 ≤ a.toNat) (hctrl : a ≠ 0xB0000000#32) (hdata : a ≠ 0xB0000001#32)
    (hout : a ≠ 0xC0000000#32) (hgpio : ¬(0xD0000000 ≤ a.toNat ∧ a.toNat < 0xD0000014)) : regionOf a = none := by
  obtain ⟨-, -, -, -, -, hnone⟩ := addressMap a
  rw [hnone]
  bv_omega

theorem regionOf_eq_gpio {a : Word} (h : 0xD0000000 ≤ a.toNat ∧ a.toNat < 0xD0000014) : regionOf a = some .gpio := by
  obtain ⟨-, -, -, -, hgpio, -⟩ := addressMap a
  exact hgpio.mpr (by omega)

/-! ### Where an access stops (20_memory.md R67, R68, R70) -/

/-- The text devices take bytes only (20_memory.md R68). -/
theorem admits_text_of_ne_byte {r : Region} {size : AccessSize} (hr : r = .textInput ∨ r = .textOutput) (hs : size ≠ .byte)
    (a : Word) (kind : AccessKind) : admits r a size kind = false := by
  cases size with
  | byte => exact absurd rfl hs
  | half | word => rcases hr with rfl | rfl <;> cases kind <;> rfl

/-- The GPIO registers take words only (20_memory.md R68). -/
theorem admits_gpio_of_ne_word {size : AccessSize} (hs : size ≠ .word) (a : Word) (kind : AccessKind) :
    admits .gpio a size kind = false := by
  cases size with
  | word => exact absurd rfl hs
  | byte | half => cases kind <;> rfl

/-- No device admits a fetch (20_memory.md R72). -/
theorem admits_device_fetch {r : Region} (hr : r = .textInput ∨ r = .textOutput ∨ r = .gpio) (a : Word) (size : AccessSize) :
    admits r a size .fetch = false := by
  rcases hr with rfl | rfl | rfl <;> rfl

section
variable {a : Word} {size : AccessSize} {kind : AccessKind}

theorem checkAccess_misaligned (ha : a.toNat % size.bytes ≠ 0) :
    checkAccess a size kind = .error (.misalignedAccess a size) := checkAccess_error.mpr (.inl ⟨ha, rfl⟩)

theorem checkAccess_unmapped (ha : a.toNat % size.bytes = 0) (hr : regionOf a = none) :
    checkAccess a size kind = .error (.unmappedAccess a size kind) := checkAccess_error.mpr (.inr (.inl ⟨ha, hr, rfl⟩))

theorem checkAccess_unsupported {r : Region} (ha : a.toNat % size.bytes = 0) (hr : regionOf a = some r)
    (hadm : admits r a size kind = false) : checkAccess a size kind = .error (.unsupportedDeviceAccess a size kind) :=
  checkAccess_error.mpr (.inr (.inr ⟨ha, ⟨r, hr, hadm⟩, rfl⟩))

/-- A half word or a word at a text device stops (20_memory.md R68). -/
theorem checkAccess_text_wide (ha : a.toNat % size.bytes = 0) (hs : size ≠ .byte)
    (hdev : a = 0xB0000000#32 ∨ a = 0xB0000001#32 ∨ a = 0xC0000000#32) :
    checkAccess a size kind = .error (.unsupportedDeviceAccess a size kind) := by
  rcases hdev with rfl | rfl | rfl
  · exact checkAccess_unsupported ha rfl (admits_text_of_ne_byte (.inl rfl) hs _ kind)
  · exact checkAccess_unsupported ha rfl (admits_text_of_ne_byte (.inl rfl) hs _ kind)
  · exact checkAccess_unsupported ha rfl (admits_text_of_ne_byte (.inr rfl) hs _ kind)

/-- A byte or a half word at a GPIO register stops (20_memory.md R68). -/
theorem checkAccess_gpio_narrow (ha : a.toNat % size.bytes = 0) (hs : size ≠ .word)
    (hdev : 0xD0000000 ≤ a.toNat ∧ a.toNat < 0xD0000014) :
    checkAccess a size kind = .error (.unsupportedDeviceAccess a size kind) :=
  checkAccess_unsupported ha (regionOf_eq_gpio hdev) (admits_gpio_of_ne_word hs a kind)

end

/-! ### A fetch outside memory (20_memory.md R72) -/

theorem State.fetch_of_check_error {s : State} {f : Fault} (h : checkAccess s.pc .word .fetch = .error f) :
    s.fetch = .error f := by
  rw [State.fetch, h]

/-- A fetch that stops stops the step: the host's turn changes nothing a fetch sees (20_memory.md R80). -/
theorem step_of_fetch_error {s : State} {f : Fault} (hf : s.fetch = .error f) : step s = .fault f := by
  rw [step, State.cycle, State.runInstr_of_fetch_error (s.hostTurn_fetch.trans hf), mapNext_fault]

/-- Settles O9: a multiple of 4 beyond memory is the address of a device register, which admits no fetch, or is unmapped. -/
theorem fetchOutsideMemoryFaults : Obligations.FetchOutsideMemoryFaults := by
  intro s ha hm
  obtain ⟨-, -, htextIn, htextOut, hgpio, hnone⟩ := addressMap s.pc
  refine step_of_fetch_error (State.fetch_of_check_error ?_)
  have hdevice {r : Region} (hmap : regionOf s.pc = some r) (hr : r = .textInput ∨ r = .textOutput ∨ r = .gpio) :
      checkAccess s.pc .word .fetch = .error (.unsupportedDeviceAccess s.pc .word .fetch) :=
    checkAccess_unsupported ha hmap (admits_device_fetch hr _ _)
  split
  next h =>
    rcases h with h | h | h
    · exact hdevice (htextIn.mpr (.inl h)) (.inl rfl)
    · exact hdevice (htextOut.mpr h) (.inr (.inl rfl))
    · exact hdevice (hgpio.mpr (by omega)) (.inr (.inr rfl))
  next h => exact checkAccess_unmapped ha (hnone.mpr (by omega))

/-! ### Where a load and a store stop (20_memory.md R70, R71) -/

/-- The five loads with the size of the access each makes (43_loads.md R171 to R175). -/
def loadSizes (rd rs1 : RegIdx) (imm : BitVec 12) : List (Instr × AccessSize) :=
  [(.lb rd rs1 imm, .byte), (.lbu rd rs1 imm, .byte), (.lh rd rs1 imm, .half), (.lhu rd rs1 imm, .half),
    (.lw rd rs1 imm, .word)]

/-- The three stores with the size of the access each makes (44_stores.md R181 to R183). -/
def storeSizes (rs1 rs2 : RegIdx) (imm : BitVec 12) : List (Instr × AccessSize) :=
  [(.sb rs1 rs2 imm, .byte), (.sh rs1 rs2 imm, .half), (.sw rs1 rs2 imm, .word)]

/-- Each load is `loadInto` with its size (43_loads.md R170). -/
theorem exec_load {rd rs1 : RegIdx} {imm : BitVec 12} {p : Instr × AccessSize} (hp : p ∈ loadSizes rd rs1 imm) (s : State) :
    ∃ widen, exec p.1 s = s.loadInto rd (s.loadAddr rs1 imm) p.2 widen := by
  simp only [loadSizes, List.mem_cons, List.not_mem_nil, or_false] at hp
  rcases hp with rfl | rfl | rfl | rfl | rfl <;> exact ⟨_, rfl⟩

/-- Each store is `storeFrom` with its size (44_stores.md R180). -/
theorem exec_store {rs1 rs2 : RegIdx} {imm : BitVec 12} {p : Instr × AccessSize} (hp : p ∈ storeSizes rs1 rs2 imm)
    (s : State) : exec p.1 s = s.storeFrom rs2 (s.storeAddr rs1 imm) p.2 := by
  simp only [storeSizes, List.mem_cons, List.not_mem_nil, or_false] at hp
  rcases hp with rfl | rfl | rfl <;> rfl

/-- A load whose checks stop it stops with their fault. -/
theorem State.loadInto_of_check_error {s : State} {rd : RegIdx} {a : Word} {size : AccessSize} {widen : Word → Word}
    {f : Fault} (h : checkAccess a size .load = .error f) : s.loadInto rd a size widen = .fault f := by
  rw [State.loadInto, State.memRead_error.mpr h]

/-- A store whose checks stop it stops with their fault. -/
theorem State.storeFrom_of_check_error {s : State} {rs2 : RegIdx} {a : Word} {size : AccessSize} {f : Fault}
    (h : checkAccess a size .store = .error f) : s.storeFrom rs2 a size = .fault f := by
  rw [State.storeFrom, State.memWrite_error.mpr h]

/-- Settles O25: a load stops where its checks do. -/
theorem loadFaults : Obligations.LoadFaults := by
  rintro s rd rs1 imm a rfl p hp
  obtain ⟨widen, he⟩ := exec_load hp s
  have hstop {f : Fault} (h : checkAccess (s.loadAddr rs1 imm) p.2 .load = .error f) : exec p.1 s = .fault f :=
    he.trans (State.loadInto_of_check_error h)
  refine ⟨fun ha => hstop (checkAccess_misaligned ha), fun ha hmem hctrl hdata hout hgpio => ?_, fun ha hdev => ?_⟩
  · exact hstop (checkAccess_unmapped ha (regionOf_eq_none hmem hctrl hdata hout hgpio))
  · rcases hdev with ⟨hs, htext⟩ | ⟨hs, hgpio⟩
    · exact hstop (checkAccess_text_wide ha hs htext)
    · exact hstop (checkAccess_gpio_narrow ha hs hgpio)

/-- The text input's `data` is read-only, whatever the width of a store (60_exceptions.md R256). -/
theorem checkAccess_data_store {a : Word} {size : AccessSize} (ha : a.toNat % size.bytes = 0) (hdata : a = 0xB0000001#32) :
    checkAccess a size .store = .error (.unsupportedDeviceAccess a size .store) := by
  subst hdata
  have hadm : admits .textInput 0xB0000001#32 size .store = false := by cases size <;> rfl
  exact checkAccess_unsupported ha rfl hadm

/-- Settles O31: a store stops where its checks do. -/
theorem storeFaults : Obligations.StoreFaults := by
  rintro s rs1 rs2 imm a rfl p hp
  have hstop {f : Fault} (h : checkAccess (s.storeAddr rs1 imm) p.2 .store = .error f) : exec p.1 s = .fault f :=
    (exec_store hp s).trans (State.storeFrom_of_check_error h)
  refine ⟨fun ha => hstop (checkAccess_misaligned ha), fun ha hmem hctrl hdata hout hgpio => ?_, fun ha hdev => ?_⟩
  · exact hstop (checkAccess_unmapped ha (regionOf_eq_none hmem hctrl hdata hout hgpio))
  · rcases hdev with hdata | ⟨hs, htext⟩ | ⟨hs, hgpio⟩
    · exact hstop (checkAccess_data_store ha hdata)
    · exact hstop (checkAccess_text_wide ha hs (htext.imp_right .inr))
    · exact hstop (checkAccess_gpio_narrow ha hs hgpio)

/-! ### Loads with no store between them (20_memory.md R73) -/

/-- An instruction that is no store leaves memory, every device and the count of changes as they were (44_stores.md R184). -/
theorem exec_of_not_store {i : Instr} {s t : State} (h : exec i s = .next t) (hi : i.isStore = false) :
    t.mem = s.mem ∧ SameDevices s t ∧ t.changes = s.changes := by
  obtain ⟨-, ⟨rd, v, k, -, -, -, ht⟩ | ⟨-, -, -, ht⟩ | ⟨-, hstore, -⟩ | ⟨-, ht⟩⟩ := exec_next h
  · rw [ht]; exact ⟨by simp, by constructor <;> simp, by simp⟩
  · rw [ht]; exact ⟨rfl, by constructor <;> rfl, rfl⟩
  · rw [hi] at hstore; cases hstore
  · rw [ht]; exact ⟨rfl, by constructor <;> rfl, rfl⟩

section
variable {s t : State}

theorem State.loadTextInput_congr (hdev : SameDevices s t) (hchanges : t.changes = s.changes) (a : Word) :
    t.loadTextInput a = s.loadTextInput a := by
  simp [State.loadTextInput, State.loadCtrl, hdev.ctrl, hdev.data, hchanges]

theorem State.loadGpio_congr (hdev : SameDevices s t) (a : Word) : t.loadGpio a = s.loadGpio a := by
  simp [State.loadGpio, hdev.dir, hdev.ien, hdev.rev, hdev.fev, hdev.val]

/-- What a load answers, but for one from the text output, depends on memory, the devices and the count of changes only. -/
theorem State.memRead_congr (hmem : t.mem = s.mem) (hdev : SameDevices s t) (hchanges : t.changes = s.changes) {a : Word}
    (ha : a ≠ 0xC0000000#32) (size : AccessSize) : t.memRead a size = (s.memRead a size).map fun p => (p.1, t) := by
  unfold State.memRead
  cases hc : checkAccess a size .load with
  | error f => rfl
  | ok r =>
    obtain ⟨-, hregion, -⟩ := checkAccess_ok.mp hc
    cases r with
    | ram | bitmapRam => simp only [hmem]; rfl
    | textInput => simp only [State.loadTextInput_congr hdev hchanges]; rfl
    | textOutput =>
      obtain ⟨-, -, -, htextOut, -, -⟩ := addressMap a
      exact absurd (BitVec.eq_of_toNat_eq (htextOut.mp hregion)) ha
    | gpio => simp only [State.loadGpio_congr hdev]; rfl

end

/-- Settles O26: what a load depends on, an instruction that is no store keeps. -/
theorem loadsAreIdempotent : Obligations.LoadsAreIdempotent := by
  intro i s t a size v s' hi he ha h
  obtain ⟨hmem, hdev, hchanges⟩ := exec_of_not_store he hi
  exact ⟨t, by rw [State.memRead_congr hmem hdev hchanges ha, h]; rfl⟩

/-! ### Loads from memory (43_loads.md R170 to R175) -/

/-- A register write and a move of `pc` change nothing else. -/
theorem OnlyWritesReg.of_setX (s : State) (rd : RegIdx) (v p : Word) :
    OnlyWritesReg s { s.setX rd v with pc := p } rd v where
  regs r := (State.x_congr (s := s.setX rd v) rfl r).trans (s.x_setX rd r v)
  memory a := by simp
  devices := by constructor <;> simp
  control := by constructor <;> simp
  counts := by constructor <;> simp

/-- An instruction that loads from memory writes the bytes it reads there, widened. -/
theorem resultIs_of_loadInto {i : Instr} {s : State} {rd : RegIdx} {a v : Word} {size : AccessSize} {widen : Word → Word}
    (he : exec i s = s.loadInto rd a size widen) (hpc : s.pc.toNat % 4 = 0) (ha : a.toNat % size.bytes = 0)
    (hm : a.toNat < 0x1000) (hv : widen (s.mem.readLE a.toNat size.bytes) = v) : ResultIs i s rd v := by
  subst hv
  refine ⟨_, ?_, OnlyWritesReg.of_setX s rd _ (s.pc + 4#32), rfl⟩
  rw [he, State.loadInto_of_ok (State.memRead_ram ha hm), State.writeBack_of_aligned ((isAligned4_iff _).mpr hpc)]

/-- A wide read as a number: the first byte, and 256 times what the bytes after it read (20_memory.md R64). -/
theorem Memory.toNat_readLE_succ (m : Memory) (a n : Nat) :
    (m.readLE a (n + 1)).toNat = ((m.read a).toNat + 256 * (m.readLE (a + 1) n).toNat) % 2 ^ 32 := by
  have hdisjoint : (m.read a).setWidth 32 &&& (m.readLE (a + 1) n <<< 8) = 0#32 := by
    ext i hi
    by_cases h8 : i < 8
    · simp [h8]
    · simp [BitVec.getLsbD_of_ge (m.read a) i (by omega)]
  rw [Memory.readLE, ← BitVec.add_eq_or_of_and_eq_zero _ _ hdisjoint]
  simp only [BitVec.toNat_add, BitVec.toNat_setWidth, BitVec.toNat_shiftLeft, Nat.shiftLeft_eq]
  omega

/-- A byte that is read, as a number. -/
theorem Memory.toNat_readLE_one (m : Memory) (a : Nat) : (m.readLE a 1).toNat = (m.read a).toNat := by
  have hbyte := (m.read a).isLt
  rw [Memory.toNat_readLE_succ, Memory.readLE, BitVec.toNat_zero]
  omega

/-- A half word that is read, as a number: its two bytes in little-endian order. -/
theorem Memory.toNat_readLE_two (m : Memory) (a : Nat) :
    (m.readLE a 2).toNat = (m.read a).toNat + 256 * (m.read (a + 1)).toNat := by
  have hlow := (m.read a).isLt
  have hhigh := (m.read (a + 1)).isLt
  rw [Memory.toNat_readLE_succ, Memory.toNat_readLE_one]
  omega

/-- A word that is read, as a number: its four bytes in little-endian order. -/
theorem Memory.toNat_readLE_four (m : Memory) (a : Nat) :
    (m.readLE a 4).toNat = (m.read a).toNat + 256 * (m.read (a + 1)).toNat + 65536 * (m.read (a + 2)).toNat
      + 16777216 * (m.read (a + 3)).toNat := by
  have h0 := (m.read a).isLt
  have h1 := (m.read (a + 1)).isLt
  have h2 := (m.read (a + 2)).isLt
  have h3 := (m.read (a + 3)).isLt
  rw [Memory.toNat_readLE_succ, Memory.toNat_readLE_succ, Memory.toNat_readLE_two]
  simp only [Nat.add_assoc, Nat.reduceAdd]
  omega

theorem Memory.setWidth_readLE_one (m : Memory) (a : Nat) : (m.readLE a 1).setWidth 8 = m.read a := by
  apply BitVec.eq_of_toNat_eq
  rw [BitVec.toNat_setWidth, Memory.toNat_readLE_one]
  exact Nat.mod_eq_of_lt (m.read a).isLt

theorem Memory.toNat_half (m : Memory) (a : Nat) :
    ((m.readLE a 2).setWidth 16).toNat = (m.read a).toNat + 256 * (m.read (a + 1)).toNat := by
  have hlow := (m.read a).isLt
  have hhigh := (m.read (a + 1)).isLt
  rw [BitVec.toNat_setWidth, Memory.toNat_readLE_two]
  omega

/-- The sign of a half word is its upper byte's. -/
theorem Memory.toInt_half (m : Memory) (a : Nat) :
    ((m.readLE a 2).setWidth 16).toInt = (m.read a).toNat + 256 * (m.read (a + 1)).toInt := by
  have hlow := (m.read a).isLt
  rw [BitVec.toInt_eq_toNat_cond, BitVec.toInt_eq_toNat_cond, Memory.toNat_half]
  split_ifs <;> omega

/-- Zero extension keeps the unsigned value. -/
theorem zext_eq_ofNat {n : Nat} (v : BitVec n) : zext v = BitVec.ofNat 32 v.toNat := (BitVec.ofNat_toNat 32 v).symm

/-- Sign extension keeps the signed value. -/
theorem sext_eq_ofInt {n : Nat} (v : BitVec n) : sext v = BitVec.ofInt 32 v.toInt := rfl

/-- Settles O21: the value is the bytes at the address joined little-endian, and its highest bit is its last byte's. -/
theorem memoryLoadResults : Obligations.MemoryLoadResults := by
  rintro s rd rs1 imm a rfl hpc hm
  refine ⟨?lbu, ?lb, fun h2 => ⟨?lhu, ?lh⟩, fun h4 => ?lw⟩
  case lbu =>
    refine resultIs_of_loadInto (size := .byte) rfl hpc (Nat.mod_one _) hm ?_
    rw [AccessSize.bytes, Memory.setWidth_readLE_one, zext_eq_ofNat]
  case lb =>
    refine resultIs_of_loadInto (size := .byte) rfl hpc (Nat.mod_one _) hm ?_
    rw [AccessSize.bytes, Memory.setWidth_readLE_one, sext_eq_ofInt]
  case lhu =>
    refine resultIs_of_loadInto (size := .half) rfl hpc h2 hm ?_
    rw [AccessSize.bytes, zext_eq_ofNat, Memory.toNat_half]
  case lh =>
    refine resultIs_of_loadInto (size := .half) rfl hpc h2 hm ?_
    rw [AccessSize.bytes, sext_eq_ofInt, Memory.toInt_half]
  case lw =>
    refine resultIs_of_loadInto (size := .word) rfl hpc h4 hm ?_
    rw [AccessSize.bytes, ← Memory.toNat_readLE_four, BitVec.ofNat_toNat, BitVec.setWidth_eq]

/-! ### Stores to memory (44_stores.md R180 to R183) -/

/-- Byte `k` of a word as a number. -/
theorem byteOfWord_eq_ofNat (v : Word) (k : Nat) : byteOfWord v k = BitVec.ofNat 8 (v.toNat / 256 ^ k) := by
  apply BitVec.eq_of_toNat_eq
  rw [byteOfWord, BitVec.extractLsb'_toNat, BitVec.toNat_ofNat, Nat.shiftRight_eq_div_pow, Nat.pow_mul]

/-- Byte `k` of the `n` bytes a wide write puts at `a` (20_memory.md R71). -/
theorem Memory.read_writeLE_of_lt {m : Memory} (h : m.wf = true) (a : Nat) {n k : Nat} (hk : k < n) (v : Word) :
    (m.writeLE a n v).read (a + k) = byteOfWord v k := by
  rw [Memory.read_writeLE h, if_pos (by omega), Nat.add_sub_cancel_left]

/-- A wide write leaves every byte outside it (20_memory.md R71). -/
theorem Memory.read_writeLE_of_outside {m : Memory} (h : m.wf = true) {a n b : Nat} (hb : b < a ∨ a + n ≤ b) (v : Word) :
    (m.writeLE a n v).read b = m.read b := by
  rw [Memory.read_writeLE h, if_neg (by omega)]

/-- A store to memory from an aligned `pc` writes its bytes, is counted and goes on at `pc + 4`. -/
theorem State.storeFrom_ram {s : State} {rs2 : RegIdx} {a : Word} {size : AccessSize} (hpc : s.pc.toNat % 4 = 0)
    (ha : a.toNat % size.bytes = 0) (hm : a.toNat < 0x1000) :
    s.storeFrom rs2 a size = .next { s with
      mem := s.mem.writeLE a.toNat size.bytes (s.x rs2), changes := s.changes + 1, pc := s.pc + 4#32 } :=
  State.storeFrom_of_ok (State.memWrite_ram ha hm) ((isAligned4_iff _).mpr hpc)

/-- Settles O27: the bytes of the access are those of the register, and every other byte reads as before. -/
theorem memoryStoreResults : Obligations.MemoryStoreResults := by
  rintro s rs1 rs2 imm a rfl hwf hpc hm p hp ha
  obtain ⟨q, hq, rfl⟩ :=
    List.mem_map.mp (show p ∈ (storeSizes rs1 rs2 imm).map fun q => (q.1, q.2.bytes) from hp)
  refine ⟨_, (exec_store hq s).trans (State.storeFrom_ram hpc ha hm), rfl, fun k hk => ?_, fun b hb => ?_, fun r => rfl,
    by constructor <;> rfl, by constructor <;> rfl, rfl, rfl⟩
  · exact (Memory.read_writeLE_of_lt hwf _ hk _).trans (byteOfWord_eq_ofNat _ k)
  · exact Memory.read_writeLE_of_outside hwf hb _

/-! ### What a load and a fetch see of a store (20_memory.md R64, R82) -/

/-- A store to memory that completes was aligned, leaves an aligned `pc` and has written its bytes. -/
theorem State.storeFrom_next_ram {s t : State} {rs2 : RegIdx} {a : Word} {size : AccessSize}
    (h : s.storeFrom rs2 a size = .next t) (hm : a.toNat < 0x1000) :
    a.toNat % size.bytes = 0 ∧ t.pc.toNat % 4 = 0 ∧ t.mem = s.mem.writeLE a.toNat size.bytes (s.x rs2) := by
  by_cases ha : a.toNat % size.bytes = 0
  · simp only [State.storeFrom, State.memWrite_ram ha hm] at h
    obtain ⟨hpc, rfl⟩ := State.goTo_next.mp h
    exact ⟨ha, (isAligned4_iff _).mp hpc, rfl⟩
  · rw [State.storeFrom_of_check_error (checkAccess_misaligned ha)] at h
    cases h

/-- Reading a word back gives the word written (20_memory.md R64). -/
theorem Memory.readLE_writeLE_four {m : Memory} (h : m.wf = true) (a : Nat) (v : Word) :
    (m.writeLE a 4 v).readLE a 4 = v := by
  have hbyte {k : Nat} (hk : k < 4) : (m.writeLE a 4 v).read (a + k) = byteOfWord v k :=
    Memory.read_writeLE_of_lt h a hk v
  have hfirst : (m.writeLE a 4 v).read a = byteOfWord v 0 := hbyte (k := 0) (by decide)
  rw [Memory.readLE_four, hfirst, hbyte (by decide), hbyte (by decide), hbyte (by decide), wordOfBytes_byteOfWord]

/-- Settles O33: the store was aligned, so the fetch passes its checks and reads the word back. -/
theorem storeSeenByFetch : Obligations.StoreSeenByFetch := by
  intro s t u rs1 rs2 imm hwf hm h hmem hpc
  obtain ⟨ha, -, ht⟩ := State.storeFrom_next_ram (size := .word) h hm
  rw [← hpc] at ha hm ht
  rw [State.fetch_ram ((isAligned4_iff _).mpr ha) hm, ← Memory.readLE_four, hmem, ht, AccessSize.bytes,
    Memory.readLE_writeLE_four hwf]

/-- An instruction with a result leaves it in its destination, unless that is x[0]. -/
theorem ResultIs.exists_x_eq {i : Instr} {s : State} {rd : RegIdx} {v : Word} (h : ResultIs i s rd v) (hrd : rd ≠ 0#5) :
    ∃ u, exec i s = .next u ∧ u.x rd = v := by
  obtain ⟨u, he, honly, -⟩ := h
  exact ⟨u, he, (honly.regs rd).trans (if_pos ⟨rfl, hrd⟩)⟩

/-- Two neighbouring bytes of a word are 16 of its bits. -/
theorem ofNat_two_bytes (v : Word) (k : Nat) :
    BitVec.ofNat 32 ((byteOfWord v (2 * k)).toNat + 256 * (byteOfWord v (2 * k + 1)).toNat) =
      (v.extractLsb' (16 * k) 16).setWidth 32 := by
  have hpow : 2 ^ (16 * k) = 256 ^ (2 * k) := by rw [Nat.pow_mul, Nat.pow_mul]
  apply BitVec.eq_of_toNat_eq
  rw [byteOfWord_eq_ofNat, byteOfWord_eq_ofNat, BitVec.toNat_setWidth, BitVec.extractLsb'_toNat,
    Nat.shiftRight_eq_div_pow, hpow, Nat.pow_succ, ← Nat.div_div_eq_div_mul]
  simp only [BitVec.toNat_ofNat]
  omega

/-- An aligned access that starts in memory ends in memory (20_memory.md R63). -/
theorem access_end_le {a : Word} {size : AccessSize} (ha : a.toNat % size.bytes = 0) (hm : a.toNat < 0x1000) :
    a.toNat + size.bytes ≤ 0x1000 := by
  cases size <;> simp only [AccessSize.bytes] at ha ⊢ <;> omega

/-- After a store to memory of any width, a byte load at byte `k` of the access sees byte `k` of the value. -/
theorem exec_lbu_after_storeFrom {s t : State} {rs2 rd r : RegIdx} {j : BitVec 12} {a : Word} {size : AccessSize} {k : Nat}
    (hwf : s.mem.wf = true) (hrd : rd ≠ 0#5) (hm : a.toNat < 0x1000) (h : s.storeFrom rs2 a size = .next t)
    (hk : k < size.bytes) (hj : (t.loadAddr r j).toNat = a.toNat + k) :
    ∃ u, exec (.lbu rd r j) t = .next u ∧ u.x rd = ((s.x rs2).extractLsb' (8 * k) 8).setWidth 32 := by
  obtain ⟨ha, hpc, ht⟩ := State.storeFrom_next_ram h hm
  have hend := access_end_le ha hm
  obtain ⟨hresult, -⟩ := memoryLoadResults t rd r j _ rfl hpc (by omega)
  rw [hj, ht, Memory.read_writeLE_of_lt hwf _ hk, BitVec.ofNat_toNat] at hresult
  exact hresult.exists_x_eq hrd

/-- After a word store to memory, a half-word load at half word `k` sees half word `k` of the value. -/
theorem exec_lhu_after_storeFrom_word {s t : State} {rs2 rd r : RegIdx} {j : BitVec 12} {a : Word} {k : Nat}
    (hwf : s.mem.wf = true) (hrd : rd ≠ 0#5) (hm : a.toNat < 0x1000) (h : s.storeFrom rs2 a .word = .next t)
    (hk : k < 2) (hj : (t.loadAddr r j).toNat = a.toNat + 2 * k) :
    ∃ u, exec (.lhu rd r j) t = .next u ∧ u.x rd = ((s.x rs2).extractLsb' (16 * k) 16).setWidth 32 := by
  obtain ⟨ha, hpc, ht⟩ := State.storeFrom_next_ram h hm
  rw [AccessSize.bytes] at ha ht
  obtain ⟨-, -, hhalf, -⟩ := memoryLoadResults t rd r j _ rfl hpc (by omega)
  obtain ⟨hresult, -⟩ := hhalf (by omega)
  rw [hj, ht, Memory.read_writeLE_of_lt hwf _ (by omega), Nat.add_assoc, Memory.read_writeLE_of_lt hwf _ (by omega),
    ofNat_two_bytes] at hresult
  exact hresult.exists_x_eq hrd

/-- Settles O32: each load reads what the store put at its bytes, whose order is the load's own. -/
theorem littleEndianStoreThenLoad : Obligations.LittleEndianStoreThenLoad := by
  intro s t rs1 rs2 rd imm hwf hrd hm
  refine ⟨fun h => ⟨fun r j k hk hj => ?_, fun r j k hk hj => ?_⟩, fun h r j k hk hj => ?_⟩
  · exact exec_lbu_after_storeFrom (size := .word) hwf hrd hm h hk hj
  · exact exec_lhu_after_storeFrom_word hwf hrd hm h hk hj
  · exact exec_lbu_after_storeFrom (size := .half) hwf hrd hm h hk hj

end Sys2Proof.Machine
end

section
/-! PROOFS. Decoding and encoding (spec/30_encoding.md): a row of the decode table is its mask and match, the rows exclude
one another, and encoding and decoding undo each other. -/

namespace Sys2Proof

/-! ### Format R, field by field -/

/-- Masking a format R word masks each field. -/
theorem encR_and (f7 g7 : BitVec 7) (rs2 q2 rs1 q1 : RegIdx) (f3 g3 : BitVec 3) (rd qd : RegIdx) (op oq : BitVec 7) :
    encR f7 rs2 rs1 f3 rd op &&& encR g7 q2 q1 g3 qd oq =
      encR (f7 &&& g7) (rs2 &&& q2) (rs1 &&& q1) (f3 &&& g3) (rd &&& qd) (op &&& oq) := by
  apply BitVec.eq_of_getLsbD_eq; intro i _
  simp only [BitVec.getLsbD_and, getLsbD_encR]
  split_ifs <;> rfl

theorem encR_inj {f7 g7 : BitVec 7} {rs2 q2 rs1 q1 : RegIdx} {f3 g3 : BitVec 3} {rd qd : RegIdx} {op oq : BitVec 7} :
    encR f7 rs2 rs1 f3 rd op = encR g7 q2 q1 g3 qd oq ↔
      f7 = g7 ∧ rs2 = q2 ∧ rs1 = q1 ∧ f3 = g3 ∧ rd = qd ∧ op = oq := by
  refine ⟨fun h => ?_, by rintro ⟨rfl, rfl, rfl, rfl, rfl, rfl⟩; rfl⟩
  have h7 := congrArg funct7Of h
  have h2 := congrArg rs2Of h
  have h1 := congrArg rs1Of h
  have h3 := congrArg funct3Of h
  have hd := congrArg rdOf h
  have ho := congrArg opcodeOf h
  simp only [funct7Of_encR, rs2Of_encR, rs1Of_encR, funct3Of_encR, rdOf_encR, opcodeOf_encR] at h7 h2 h1 h3 hd ho
  exact ⟨h7, h2, h1, h3, hd, ho⟩

/-! ### A row as mask and match (R111, R112) -/

/-- The mask of a field: all its bits where the row compares it, none where it has a dash. -/
def fieldMask {n : Nat} : Option (BitVec n) → BitVec n
  | none => 0#n
  | some _ => BitVec.allOnes n

/-- The bits a row asks of a field, zero where it has a dash. -/
def fieldValue {n : Nat} : Option (BitVec n) → BitVec n
  | none => 0#n
  | some v => v

theorem fieldMatches_iff {n : Nat} (want : Option (BitVec n)) (x : BitVec n) :
    fieldMatches want x = true ↔ x &&& fieldMask want = fieldValue want := by
  cases want with
  | none => simp [fieldMatches, fieldMask, fieldValue]
  | some v => simpa [fieldMatches, fieldMask, fieldValue] using eq_comm

/-- The bits of the word a row compares. -/
def DecodeRow.mask (r : DecodeRow) : Word :=
  encR (fieldMask r.funct7) (fieldMask r.rs2) 0#5 (fieldMask r.funct3) 0#5 (BitVec.allOnes 7)

/-- What a row compares them with. -/
def DecodeRow.value (r : DecodeRow) : Word :=
  encR (fieldValue r.funct7) (fieldValue r.rs2) 0#5 (fieldValue r.funct3) 0#5 r.opcode

/-- What it is for a word to match a row, field by field. -/
theorem DecodeRow.isMatch_iff_fields (r : DecodeRow) (w : Word) :
    r.isMatch w = true ↔ opcodeOf w = r.opcode ∧ fieldMatches r.funct3 (funct3Of w) = true ∧
      fieldMatches r.funct7 (funct7Of w) = true ∧ fieldMatches r.rs2 (rs2Of w) = true := by
  simp only [DecodeRow.isMatch, Bool.and_eq_true, beq_iff_eq, and_assoc, eq_comm (a := r.opcode)]

/-- A word matches a row exactly when its masked bits are the row's match (R112). -/
theorem DecodeRow.isMatch_iff (r : DecodeRow) (w : Word) : r.isMatch w = true ↔ w &&& r.mask = r.value := by
  have hw : w &&& r.mask = encR (funct7Of w &&& fieldMask r.funct7) (rs2Of w &&& fieldMask r.rs2) 0#5
      (funct3Of w &&& fieldMask r.funct3) 0#5 (opcodeOf w) := by
    conv_lhs => rw [← encR_fields w, DecodeRow.mask, encR_and]
    simp only [BitVec.and_zero, BitVec.and_allOnes]
  simp only [isMatch_iff_fields, fieldMatches_iff, hw, DecodeRow.value, encR_inj, true_and]
  tauto

/-- Two rows ask different values of bits that both compare. -/
def DecodeRow.Clash (r q : DecodeRow) : Prop := r.value &&& q.mask ≠ q.value &&& r.mask

theorem DecodeRow.not_clash {r q : DecodeRow} {w : Word} (hr : r.isMatch w = true) (hq : q.isMatch w = true) :
    ¬ r.Clash q := by
  rw [isMatch_iff] at hr hq
  rw [Clash, ne_eq, not_not, ← hr, ← hq, BitVec.and_assoc, BitVec.and_assoc, BitVec.and_comm r.mask]

theorem decodeTable_pairwise_clash : decodeTable.Pairwise DecodeRow.Clash := by
  unfold DecodeRow.Clash
  decide

/-- The rows are mutually exclusive (R111). -/
theorem eq_of_isMatch {r q : DecodeRow} {w : Word} (hr : r ∈ decodeTable) (hq : q ∈ decodeTable)
    (hrw : r.isMatch w = true) (hqw : q.isMatch w = true) : r = q := by
  have : Std.Symm DecodeRow.Clash := ⟨fun _ _ => Ne.symm⟩
  by_contra hne
  exact DecodeRow.not_clash hrw hqw (decodeTable_pairwise_clash.forall hr hq hne)

/-- A word that matches a row is the instruction the row reads (R111). -/
theorem decode_of_isMatch {r : DecodeRow} {w : Word} (hr : r ∈ decodeTable) (hw : r.isMatch w = true) :
    decode w = .ok (r.build w) := by
  cases hd : decode w with
  | error e => simp [(decode_error hd).2 r hr] at hw
  | ok i =>
    obtain ⟨q, hq, hqw, rfl⟩ := decode_ok hd
    rw [eq_of_isMatch hr hq hw hqw]

/-! ### Undecodable words (R120) -/

/-- A word that matches no row is undecodable (R120). -/
theorem decode_of_no_match {w : Word} (h : ∀ r ∈ decodeTable, r.isMatch w = false) : decode w = .error (.noRow w) := by
  cases hd : decode w with
  | error e => rw [(decode_error hd).1]
  | ok i =>
    obtain ⟨r, hr, hrw, -⟩ := decode_ok hd
    simp [h r hr] at hrw

/-- Settles O6: each of these words differs from every row in a field the row compares. -/
theorem absentWordsUndecodable : Obligations.AbsentWordsUndecodable := by
  intro w hw
  apply decode_of_no_match
  fin_cases hw <;> decide

/-! ### The mnemonic of a row -/

/-- The mnemonic of the instructions a row reads: that of any word's, here of the zero word's. -/
def DecodeRow.mnemonic (r : DecodeRow) : String := (r.build 0#32).mnemonic

theorem mnemonic_build {r : DecodeRow} (hr : r ∈ decodeTable) (w : Word) : (r.build w).mnemonic = r.mnemonic :=
  have hmap : decodeTable.map (fun q => (q.build w).mnemonic) = decodeTable.map DecodeRow.mnemonic := rfl
  List.map_inj_left.mp hmap r hr

theorem nodup_mnemonics : (decodeTable.map DecodeRow.mnemonic).Nodup := by decide

/-- The rows of the decode table are told apart by their mnemonics. -/
theorem isMatch_iff_mnemonic {r : DecodeRow} (hr : r ∈ decodeTable) (w : Word) :
    r.isMatch w = true ↔ ∃ i, decode w = .ok i ∧ i.mnemonic = r.mnemonic := by
  refine ⟨fun hw => ⟨_, decode_of_isMatch hr hw, mnemonic_build hr w⟩, ?_⟩
  rintro ⟨i, hd, hi⟩
  obtain ⟨q, hq, hqw, rfl⟩ := decode_ok hd
  rw [mnemonic_build hq] at hi
  exact List.inj_on_of_nodup_map nodup_mnemonics hq hr hi ▸ hqw

/-- Settles O4: the rows listed are those of the decode table, each with its mnemonic, its mask and its match. -/
theorem decodeByMaskAndMatch : Obligations.DecodeByMaskAndMatch := by
  intro w row hrow
  obtain ⟨r, hr, rfl⟩ := List.mem_map.mp
    (show row ∈ decodeTable.map fun r => (r.mnemonic, r.mask, r.value) from hrow)
  exact (r.isMatch_iff w).symm.trans (isMatch_iff_mnemonic hr w)

/-! ### Decoding an encoded word, format by format (R101, R103) -/

section
variable {op : BitVec 7} {f3 : BitVec 3} {f7 : BitVec 7}

theorem decode_encR {g : RegIdx → RegIdx → RegIdx → Instr}
    (hrow : ⟨op, some f3, some f7, none, fun w => g (rdOf w) (rs1Of w) (rs2Of w)⟩ ∈ decodeTable) (rd rs1 rs2 : RegIdx) :
    decode (encR f7 rs2 rs1 f3 rd op) = .ok (g rd rs1 rs2) :=
  (decode_of_isMatch hrow (by simp [DecodeRow.isMatch, fieldMatches])).trans (by simp)

theorem decode_encI {g : RegIdx → RegIdx → BitVec 12 → Instr}
    (hrow : ⟨op, some f3, none, none, fun w => g (rdOf w) (rs1Of w) (fieldI w)⟩ ∈ decodeTable) (rd rs1 : RegIdx)
    (imm : BitVec 12) : decode (encI imm rs1 f3 rd op) = .ok (g rd rs1 imm) :=
  (decode_of_isMatch hrow (by simp [DecodeRow.isMatch, fieldMatches])).trans (by simp)

theorem decode_encS {g : RegIdx → RegIdx → BitVec 12 → Instr}
    (hrow : ⟨op, some f3, none, none, fun w => g (rs1Of w) (rs2Of w) (fieldS w)⟩ ∈ decodeTable) (rs1 rs2 : RegIdx)
    (imm : BitVec 12) : decode (encS imm rs2 rs1 f3 op) = .ok (g rs1 rs2 imm) :=
  (decode_of_isMatch hrow (by simp [DecodeRow.isMatch, fieldMatches])).trans (by simp)

theorem decode_encB {g : RegIdx → RegIdx → BitVec 13 → Instr}
    (hrow : ⟨op, some f3, none, none, fun w => g (rs1Of w) (rs2Of w) (fieldB w)⟩ ∈ decodeTable) (rs1 rs2 : RegIdx)
    {off : BitVec 13} (heven : evenOffset off = true) : decode (encB off rs2 rs1 f3 op) = .ok (g rs1 rs2 off) :=
  (decode_of_isMatch hrow (by simp [DecodeRow.isMatch, fieldMatches])).trans (by simp [fieldB_encB, heven])

theorem decode_encU {g : RegIdx → BitVec 20 → Instr}
    (hrow : ⟨op, none, none, none, fun w => g (rdOf w) (fieldU w)⟩ ∈ decodeTable) (rd : RegIdx) (imm : BitVec 20) :
    decode (encU imm rd op) = .ok (g rd imm) :=
  (decode_of_isMatch hrow (by simp [DecodeRow.isMatch, fieldMatches])).trans (by simp)

theorem decode_encJ {g : RegIdx → BitVec 21 → Instr}
    (hrow : ⟨op, none, none, none, fun w => g (rdOf w) (fieldJ w)⟩ ∈ decodeTable) (rd : RegIdx) {off : BitVec 21}
    (heven : evenOffset off = true) : decode (encJ off rd op) = .ok (g rd off) :=
  (decode_of_isMatch hrow (by simp [DecodeRow.isMatch, fieldMatches])).trans (by simp [fieldJ_encJ, heven])

end

/-- Settles O2: an encoded word matches the row of its instruction, whose format reads back the fields written. -/
theorem decodeOfEncode : Obligations.DecodeOfEncode := by
  intro i hi
  cases i
  case lui | auipc => exact decode_encU (by simp [decodeTable, rowsUpperJump]) _ _
  case jal => exact decode_encJ (by simp [decodeTable, rowsUpperJump]) _ hi
  case jalr => exact decode_encI (by simp [decodeTable, rowsUpperJump]) _ _ _
  case beq | bne | blt | bge | bltu | bgeu => exact decode_encB (by simp [decodeTable, rowsBranch]) _ _ hi
  case lb | lh | lw | lbu | lhu => exact decode_encI (by simp [decodeTable, rowsMemory]) _ _ _
  case sb | sh | sw => exact decode_encS (by simp [decodeTable, rowsMemory]) _ _ _
  case slli | srli | srai => exact decode_encR (by simp [decodeTable, rowsOpImm]) _ _ _
  case addi | slti | sltiu | xori | ori | andi => exact decode_encI (by simp [decodeTable, rowsOpImm]) _ _ _
  case add | sub | sll | slt | sltu | xor | srl | sra | or | and =>
    exact decode_encR (by simp [decodeTable, rowsOp]) _ _ _
  case mret => rfl

/-- Settles O1: each word is its instruction's own encoding, but for the MRET word, whose ignored bits are not zero
(R113). -/
theorem sampleWordsDecode : Obligations.SampleWordsDecode :=
  ⟨decodeOfEncode (.lui 5#5 0x12345#20) rfl, decodeOfEncode (.auipc 6#5 1#20) rfl,
    decodeOfEncode (.jal 0#5 (-8#21)) rfl, decodeOfEncode (.jal 1#5 1048572#21) rfl,
    decodeOfEncode (.jalr 5#5 5#5 8#12) rfl, decodeOfEncode (.bne 5#5 0#5 (-8#13)) rfl,
    decodeOfEncode (.beq 0#5 0#5 4094#13) rfl, decodeOfEncode (.lhu 5#5 6#5 3#12) rfl,
    decodeOfEncode (.sw 2#5 5#5 (-4#12)) rfl, decodeOfEncode (.sb 6#5 5#5 3#12) rfl,
    decodeOfEncode (.sltiu 5#5 6#5 (-2048#12)) rfl, decodeOfEncode (.srai 5#5 6#5 4#5) rfl,
    decodeOfEncode (.add 31#5 30#5 29#5) rfl, rfl⟩

/-! ### Encoding a decoded word, format by format (R101) -/

section
variable {r : DecodeRow} {w : Word} {f3 : BitVec 3} {f7 : BitVec 7}

/-- A compared field that matches is the row's value. -/
theorem eq_of_fieldMatches {n : Nat} {want : Option (BitVec n)} {x v : BitVec n} (h : fieldMatches want x = true)
    (hv : want = some v) : x = v := by
  subst hv
  exact (beq_iff_eq.mp h).symm

theorem encR_of_isMatch (hw : r.isMatch w = true) (h3 : r.funct3 = some f3) (h7 : r.funct7 = some f7) :
    encR f7 (rs2Of w) (rs1Of w) f3 (rdOf w) r.opcode = w := by
  obtain ⟨hop, hf3, hf7, -⟩ := (r.isMatch_iff_fields w).mp hw
  rw [← hop, ← eq_of_fieldMatches hf3 h3, ← eq_of_fieldMatches hf7 h7, encR_fields]

theorem encI_of_isMatch (hw : r.isMatch w = true) (h3 : r.funct3 = some f3) :
    encI (fieldI w) (rs1Of w) f3 (rdOf w) r.opcode = w := by
  obtain ⟨hop, hf3, -⟩ := (r.isMatch_iff_fields w).mp hw
  rw [← hop, ← eq_of_fieldMatches hf3 h3, encI_fields]

theorem encS_of_isMatch (hw : r.isMatch w = true) (h3 : r.funct3 = some f3) :
    encS (fieldS w) (rs2Of w) (rs1Of w) f3 r.opcode = w := by
  obtain ⟨hop, hf3, -⟩ := (r.isMatch_iff_fields w).mp hw
  rw [← hop, ← eq_of_fieldMatches hf3 h3, encS_fields]

theorem encB_of_isMatch (hw : r.isMatch w = true) (h3 : r.funct3 = some f3) :
    encB (fieldB w) (rs2Of w) (rs1Of w) f3 r.opcode = w := by
  obtain ⟨hop, hf3, -⟩ := (r.isMatch_iff_fields w).mp hw
  rw [← hop, ← eq_of_fieldMatches hf3 h3, encB_fields]

theorem encU_of_isMatch (hw : r.isMatch w = true) : encU (fieldU w) (rdOf w) r.opcode = w := by
  obtain ⟨hop, -⟩ := (r.isMatch_iff_fields w).mp hw
  rw [← hop, encU_fields]

theorem encJ_of_isMatch (hw : r.isMatch w = true) : encJ (fieldJ w) (rdOf w) r.opcode = w := by
  obtain ⟨hop, -⟩ := (r.isMatch_iff_fields w).mp hw
  rw [← hop, encJ_fields]

end

/-- A row reads well-formed instructions only and loses no bit of the words it matches. -/
def DecodeRow.Lossless (r : DecodeRow) : Prop :=
  ∀ w, r.isMatch w = true → WellFormed (r.build w) = true ∧ encode (r.build w) = w

theorem rowsUpperJump_lossless : ∀ r ∈ rowsUpperJump, r.Lossless := by
  simp only [rowsUpperJump, List.forall_mem_cons]
  exact ⟨fun _ hw => ⟨rfl, encU_of_isMatch hw⟩, fun _ hw => ⟨rfl, encU_of_isMatch hw⟩,
    fun w hw => ⟨(evenOffset_field w).2, encJ_of_isMatch hw⟩, fun _ hw => ⟨rfl, encI_of_isMatch hw rfl⟩, nofun⟩

theorem rowsBranch_lossless : ∀ r ∈ rowsBranch, r.Lossless := by
  intro r hr w hw
  fin_cases hr
  all_goals exact ⟨(evenOffset_field w).1, encB_of_isMatch hw rfl⟩

/-- Five loads of format I, three stores of format S. -/
theorem rowsMemory_lossless : ∀ r ∈ rowsMemory, r.Lossless := by
  intro r hr w hw
  fin_cases hr
  iterate 5 exact ⟨rfl, encI_of_isMatch hw rfl⟩
  iterate 3 exact ⟨rfl, encS_of_isMatch hw rfl⟩

/-- Format I, but for the shifts SLLI, SRLI and SRAI, which are format R with the amount for rs2 (R109). -/
theorem rowsOpImm_lossless : ∀ r ∈ rowsOpImm, r.Lossless := by
  intro r hr w hw
  fin_cases hr
  · exact ⟨rfl, encI_of_isMatch hw rfl⟩
  · exact ⟨rfl, encR_of_isMatch hw rfl rfl⟩
  iterate 3 exact ⟨rfl, encI_of_isMatch hw rfl⟩
  iterate 2 exact ⟨rfl, encR_of_isMatch hw rfl rfl⟩
  iterate 2 exact ⟨rfl, encI_of_isMatch hw rfl⟩

theorem rowsOp_lossless : ∀ r ∈ rowsOp, r.Lossless := by
  intro r hr w hw
  fin_cases hr
  all_goals exact ⟨rfl, encR_of_isMatch hw rfl rfl⟩

/-- Every row but MRET's, which does not compare rd and rs1 (R113), loses no bit. -/
theorem lossless_of_mem_decodeTable {r : DecodeRow} (hr : r ∈ decodeTable) : r.Lossless ∨ r ∈ rowsSystem := by
  simp only [decodeTable, List.mem_append] at hr
  rcases hr with ((((hr | hr) | hr) | hr) | hr) | hr
  · exact .inl (rowsUpperJump_lossless r hr)
  · exact .inl (rowsBranch_lossless r hr)
  · exact .inl (rowsMemory_lossless r hr)
  · exact .inl (rowsOpImm_lossless r hr)
  · exact .inl (rowsOp_lossless r hr)
  · exact .inr hr

/-- The masked bits of the words that are MRET (R112). -/
theorem masked_of_decode_mret {w : Word} (hd : decode w = .ok .mret) : w &&& 0xFFF0707F#32 = 0x30200073#32 :=
  (decodeByMaskAndMatch w ("MRET", 0xFFF0707F#32, 0x30200073#32) (by simp)).mpr ⟨.mret, hd, rfl⟩

/-- Settles O3: the row that reads a word loses no bit of it, or it is MRET's, whose mask leaves out ten bits. -/
theorem encodeOfDecode : Obligations.EncodeOfDecode := by
  intro w i hd
  obtain ⟨r, hr, hw, hi⟩ := decode_ok hd
  have hmret : i = .mret → encode i = 0x30200073#32 ∧ w &&& 0xFFF0707F#32 = 0x30200073#32 := by
    rintro rfl
    exact ⟨rfl, masked_of_decode_mret hd⟩
  rcases lossless_of_mem_decodeTable hr with hlossless | hsystem
  · obtain ⟨hwf, henc⟩ := hlossless w hw
    exact ⟨hi ▸ hwf, fun _ => hi ▸ henc, hmret⟩
  · obtain rfl := List.mem_singleton.mp hsystem
    exact ⟨hi ▸ rfl, fun hne => absurd hi hne, hmret⟩

/-! ### The bits of the immediates (R103) -/

open Machine

theorem getLsbD_fieldI (w : Word) {j : Nat} (hj : j < 12) : (fieldI w).getLsbD j = w.getLsbD (j + 20) := by
  simp [fieldI, hj, Nat.add_comm]

theorem getLsbD_fieldS (w : Word) {j : Nat} (hj : j < 12) :
    (fieldS w).getLsbD j = if 5 ≤ j then w.getLsbD (j + 20) else w.getLsbD (j + 7) := by
  simp only [fieldS, BitVec.getLsbD_append, BitVec.getLsbD_extractLsb']
  interval_cases j <;> simp

theorem getLsbD_fieldB (w : Word) {j : Nat} (hj : j < 13) :
    (fieldB w).getLsbD j = if j = 12 then w.getLsbD 31 else if j = 11 then w.getLsbD 7
      else if 5 ≤ j then w.getLsbD (j + 20) else if 1 ≤ j then w.getLsbD (j + 7) else false := by
  change BitVec.getLsbD (_ ++ _ ++ _ ++ _ ++ 0#1 : BitVec (1 + 1 + 6 + 4 + 1)) j = _
  simp only [BitVec.getLsbD_append, BitVec.getLsbD_extractLsb']
  interval_cases j <;> simp

theorem getLsbD_fieldJ (w : Word) {j : Nat} (hj : j < 21) :
    (fieldJ w).getLsbD j = if j = 20 then w.getLsbD 31 else if 12 ≤ j then w.getLsbD j else if j = 11 then w.getLsbD 20
      else if 1 ≤ j then w.getLsbD (j + 20) else false := by
  change BitVec.getLsbD (_ ++ _ ++ _ ++ _ ++ 0#1 : BitVec (1 + 8 + 1 + 10 + 1)) j = _
  simp only [BitVec.getLsbD_append, BitVec.getLsbD_extractLsb']
  interval_cases j <;> simp

/-- Sign extension repeats the top bit. -/
theorem getLsbD_sext {n : Nat} (v : BitVec (n + 1)) {j : Nat} (hj : j < 32) :
    (sext v).getLsbD j = v.getLsbD (min j n) := by
  rw [sext, BitVec.getLsbD_signExtend, BitVec.msb_eq_getLsbD_last, decide_eq_true hj, Bool.true_and, Nat.add_sub_cancel]
  split
  next h => rw [Nat.min_eq_left (by omega)]
  next h => rw [Nat.min_eq_right (by omega)]

theorem getLsbD_immI (w : Word) {j : Nat} (hj : j < 32) :
    (immI (fieldI w)).getLsbD j = if 11 ≤ j then w.getLsbD 31 else w.getLsbD (j + 20) := by
  rw [immI, getLsbD_sext _ hj, getLsbD_fieldI w (by omega)]
  split
  next h => rw [Nat.min_eq_right h]
  next h => rw [Nat.min_eq_left (by omega)]

theorem getLsbD_immS (w : Word) {j : Nat} (hj : j < 32) :
    (immS (fieldS w)).getLsbD j =
      if 11 ≤ j then w.getLsbD 31 else if 5 ≤ j then w.getLsbD (j + 20) else w.getLsbD (j + 7) := by
  rw [immS, getLsbD_sext _ hj, getLsbD_fieldS w (by omega)]
  by_cases h : 11 ≤ j
  · simp [h]
  · rw [Nat.min_eq_left (by omega), if_neg h]

theorem getLsbD_immB (w : Word) {j : Nat} (hj : j < 32) :
    (immB (fieldB w)).getLsbD j = if 12 ≤ j then w.getLsbD 31 else if j = 11 then w.getLsbD 7
      else if 5 ≤ j then w.getLsbD (j + 20) else if 1 ≤ j then w.getLsbD (j + 7) else false := by
  rw [immB, getLsbD_sext _ hj, getLsbD_fieldB w (by omega)]
  by_cases h : 12 ≤ j
  · simp [h]
  · rw [Nat.min_eq_left (by omega), if_neg h, if_neg (by omega)]

theorem getLsbD_immJ (w : Word) {j : Nat} (hj : j < 32) :
    (immJ (fieldJ w)).getLsbD j = if 20 ≤ j then w.getLsbD 31 else if 12 ≤ j then w.getLsbD j
      else if j = 11 then w.getLsbD 20 else if 1 ≤ j then w.getLsbD (j + 20) else false := by
  rw [immJ, getLsbD_sext _ hj, getLsbD_fieldJ w (by omega)]
  by_cases h : 20 ≤ j
  · simp [h]
  · rw [Nat.min_eq_left (by omega), if_neg h, if_neg (by omega)]

theorem getLsbD_immU (w : Word) {j : Nat} (hj : j < 32) :
    (immU (fieldU w)).getLsbD j = if 12 ≤ j then w.getLsbD j else false := by
  change BitVec.getLsbD (_ ++ 0#12 : BitVec (20 + 12)) j = _
  rw [BitVec.getLsbD_append]
  by_cases h : 12 ≤ j
  · rw [if_pos h, if_neg (by omega), fieldU, BitVec.getLsbD_extractLsb', decide_eq_true (by omega), Bool.true_and,
      Nat.add_sub_cancel' h]
  · rw [if_neg h, if_pos (by omega), BitVec.getLsbD_zero]

/-- Settles O5: each immediate is its field of the word, sign-extended or, for U, shifted up. -/
theorem immediateBits : Obligations.ImmediateBits := fun w _ hj =>
  ⟨getLsbD_immI w hj, getLsbD_immS w hj, getLsbD_immB w hj, getLsbD_immU w hj, getLsbD_immJ w hj⟩

end Sys2Proof

namespace Sys2Proof.Machine

open Sys2Proof

/-! ### The step at an undecodable word (R120) -/

/-- A fetched word that does not decode stops the step; the host's turn does not move `pc`. -/
theorem step_of_decode_error {s : State} {w : Word} {e : DecodeError} (hf : s.fetch = .ok w)
    (hd : decode w = .error e) : step s = .fault (.illegalInstruction w s.pc) := by
  rw [step, State.cycle, State.runInstr_of_decode_error (s.hostTurn_fetch.trans hf) hd, mapNext_fault, s.hostTurn_pc]

/-- Settles O8: an aligned `pc` in memory fetches the word of its four bytes, and that word does not decode. -/
theorem undecodableWordFaults : Obligations.UndecodableWordFaults := by
  intro s ha hm hno
  have hfetch := State.fetch_ram ((isAligned4_iff s.pc).mpr ha) hm
  cases hd : decode (wordOfBytes (s.mem.read s.pc.toNat) (s.mem.read (s.pc.toNat + 1)) (s.mem.read (s.pc.toNat + 2))
    (s.mem.read (s.pc.toNat + 3))) with
  | ok i => exact absurd hd (hno i)
  | error e => exact step_of_decode_error hfetch hd

end Sys2Proof.Machine
end

section
/-! PROOFS. LUI and AUIPC (spec/40_upper_immediate.md): the upper immediate as a number, what the two write, and the pair
each of them forms with ADDI. -/

namespace Sys2Proof.Machine

open Sys2Proof

/-! ### The upper immediate (30_encoding.md R107) -/

theorem toNat_immU (imm : BitVec 20) : (immU imm).toNat = imm.toNat * 4096 := by
  change BitVec.toNat (imm ++ 0#12 : BitVec (20 + 12)) = _
  rw [BitVec.toNat_append, BitVec.toNat_zero, Nat.or_zero, Nat.shiftLeft_eq]

theorem immU_eq_ofNat (imm : BitVec 20) : immU imm = BitVec.ofNat 32 (imm.toNat * 4096) := by
  rw [← toNat_immU, BitVec.ofNat_toNat, BitVec.setWidth_eq]

/-- A multiple of 4096 is the upper immediate of its upper twenty bits. -/
theorem immU_extractLsb' {w : Word} (h : w.toNat % 4096 = 0) : immU (w.extractLsb' 12 20) = w := by
  have hlt := w.isLt
  apply BitVec.eq_of_toNat_eq
  rw [toNat_immU, BitVec.extractLsb'_toNat, Nat.shiftRight_eq_div_pow]
  omega

/-! ### A value as an upper and a lower part (40_upper_immediate.md R142) -/

/-- A value less its sign-extended low twelve bits is a multiple of 4096. -/
theorem toNat_sub_immI_mod (v : Word) : (v - immI (v.setWidth 12)).toNat % 4096 = 0 := by
  have hlow : (immI (v.setWidth 12)).toNat % 4096 = v.toNat % 4096 := by
    rw [immI, sext, BitVec.toNat_signExtend, BitVec.toNat_setWidth, BitVec.toNat_setWidth]
    split <;> omega
  rw [BitVec.toNat_sub]
  omega

/-- The two parts of a value add up to it: the upper part makes up for the sign of the lower one. -/
theorem immU_add_immI (v : Word) :
    immU ((v - immI (v.setWidth 12)).extractLsb' 12 20) + immI (v.setWidth 12) = v := by
  rw [immU_extractLsb' (toNat_sub_immI_mod v), BitVec.sub_add_cancel]

/-! ### LUI and AUIPC (40_upper_immediate.md R140, R141) -/

/-- An instruction that writes `v` back has the result `v`. -/
theorem resultIs_of_writeBack {i : Instr} {s : State} {rd : RegIdx} {v : Word} (he : exec i s = s.writeBack rd v)
    (hpc : s.pc.toNat % 4 = 0) : ResultIs i s rd v :=
  ⟨_, he.trans (State.writeBack_of_aligned ((isAligned4_iff _).mpr hpc) rd v), OnlyWritesReg.of_setX s rd v _, rfl⟩

theorem lui_resultIs {s : State} (hpc : s.pc.toNat % 4 = 0) (rd : RegIdx) (imm : BitVec 20) :
    ResultIs (.lui rd imm) s rd (immU imm) :=
  resultIs_of_writeBack rfl hpc

theorem auipc_resultIs {s : State} (hpc : s.pc.toNat % 4 = 0) (rd : RegIdx) (imm : BitVec 20) :
    ResultIs (.auipc rd imm) s rd (s.pc + immU imm) :=
  resultIs_of_writeBack rfl hpc

/-- Settles O11: both write the upper immediate, which is its field times 4096, and AUIPC adds its own address. -/
theorem upperImmediateResults : Obligations.UpperImmediateResults := by
  intro s rd imm hpc
  constructor
  · rw [← immU_eq_ofNat]
    exact lui_resultIs hpc rd imm
  · rw [BitVec.ofNat_add, ← immU_eq_ofNat, BitVec.ofNat_toNat, BitVec.setWidth_eq]
    exact auipc_resultIs hpc rd imm

/-! ### The pair with ADDI (40_upper_immediate.md R142) -/

theorem addi_resultIs {s : State} (hpc : s.pc.toNat % 4 = 0) (rd rs1 : RegIdx) (imm : BitVec 12) :
    ResultIs (.addi rd rs1 imm) s rd (s.x rs1 + immI imm) :=
  resultIs_of_writeBack rfl hpc

/-- ADDI on the destination of an instruction with a result adds to that result; the instruction left `pc` aligned. -/
theorem ResultIs.exec_addi {i : Instr} {s : State} {rd : RegIdx} {v : Word} (h : ResultIs i s rd v) (hrd : rd ≠ 0#5)
    (imm : BitVec 12) :
    ∃ t u, exec i s = .next t ∧ exec (.addi rd rd imm) t = .next u ∧ u.x rd = v + immI imm := by
  obtain ⟨t, hi, rfl⟩ := h.exists_x_eq hrd
  have hpc := (isAligned4_iff _).mp (exec_pc_aligned hi)
  obtain ⟨u, haddi, hu⟩ := (addi_resultIs hpc rd rd imm).exists_x_eq hrd
  exact ⟨t, u, hi, haddi, hu⟩

/-- Settles O12: ADDI adds the lower part to the upper part, or to the address and the upper part. -/
theorem upperAndLowerPartsFormValue : Obligations.UpperAndLowerPartsFormValue := by
  intro v rd s hrd hpc
  constructor
  · obtain ⟨t, u, hlui, haddi, hu⟩ := (lui_resultIs hpc rd _).exec_addi hrd (v.setWidth 12)
    exact ⟨t, u, hlui, haddi, hu.trans (immU_add_immI v)⟩
  · obtain ⟨t, u, hauipc, haddi, hu⟩ := (auipc_resultIs hpc rd _).exec_addi hrd (v.setWidth 12)
    rw [BitVec.add_assoc, immU_add_immI] at hu
    exact ⟨t, u, hauipc, haddi, hu⟩

end Sys2Proof.Machine
end

section
/-! PROOFS. JAL and JALR that complete (spec/41_jumps.md). -/

namespace Sys2Proof.Machine

open Sys2Proof

/-- A jump to an aligned target writes the link and moves `pc` there; the target is fixed before the write, so `rd` may be
the base register (41_jumps.md R150, R151). -/
theorem State.linkAndGo_of_aligned (s : State) (rd : RegIdx) {z : Int} (hz : z % 4 = 0) :
    s.linkAndGo rd (BitVec.ofInt 32 z) = .next { s.setX rd (s.pc + 4#32) with pc := BitVec.ofInt 32 z } :=
  State.goTo_next.mpr ⟨(isAligned4_ofInt z).mpr hz, rfl⟩

/-- An instruction that jumps to base plus offset, at an aligned sum, has the link as its only register result. -/
theorem exec_linkAndGo_result {i : Instr} {s : State} {rd : RegIdx} {a : Word} {n : Nat} {v : BitVec n}
    (he : exec i s = s.linkAndGo rd (a + sext v)) (hz : (a.toInt + v.toInt) % 4 = 0) :
    ∃ t, exec i s = .next t ∧ OnlyWritesReg s t rd (s.pc + 4#32) ∧ t.pc = BitVec.ofInt 32 (a.toInt + v.toInt) := by
  refine ⟨_, ?_, OnlyWritesReg.of_setX s rd (s.pc + 4#32) (BitVec.ofInt 32 (a.toInt + v.toInt)), rfl⟩
  rw [he, add_sext, s.linkAndGo_of_aligned rd hz]

/-- Settles O13: both jumps end in `linkAndGo`, JAL from its own address and JALR from the old base register. -/
theorem jumpResults : Obligations.JumpResults := by
  intro s rd rs1 off imm
  constructor
  · have hjal : exec (.jal rd off) s = s.linkAndGo rd (s.pc + sext off) := rfl
    exact exec_linkAndGo_result hjal
  · have hjalr : exec (.jalr rd rs1 imm) s = s.linkAndGo rd (s.x rs1 + sext imm) := rfl
    exact exec_linkAndGo_result hjalr

end Sys2Proof.Machine
end

section
/-! PROOFS. The six branches that complete (spec/42_branches.md). -/

namespace Sys2Proof.Machine

open Sys2Proof

theorem OnlyMovesPc.of_pc (s : State) (p : Word) : OnlyMovesPc s { s with pc := p } where
  regs _ := rfl
  memory _ := rfl
  devices := ⟨rfl, rfl, rfl, rfl, rfl, rfl, rfl, rfl⟩
  control := ⟨rfl, rfl, rfl, rfl, rfl⟩
  counts := ⟨rfl, rfl⟩

/-- From an address that is a multiple of 4, an offset that is one leads to one. -/
theorem toInt_add_aligned {a : Word} {z : Int} (ha : a.toNat % 4 = 0) (hz : z % 4 = 0) : (a.toInt + z) % 4 = 0 := by
  rw [BitVec.toInt_eq_toNat_cond]
  split <;> omega

/-- A taken branch with an aligned target moves `pc` there (42_branches.md R160). -/
theorem State.branchIf_taken (s : State) {off : BitVec 13} (hz : (s.pc.toInt + off.toInt) % 4 = 0) :
    s.branchIf true off = .next { s with pc := BitVec.ofInt 32 (s.pc.toInt + off.toInt) } := by
  rw [State.branchIf, if_pos rfl, immB, add_sext]
  exact State.goTo_next.mpr ⟨(isAligned4_ofInt _).mpr hz, rfl⟩

/-- A branch not taken advances, whatever its offset: the target it does not go to is not checked (the spec's own
decision D5). -/
theorem State.branchIf_not_taken {s : State} (hpc : s.pc.toNat % 4 = 0) (off : BitVec 13) :
    s.branchIf false off = .next { s with pc := s.pc + 4#32 } :=
  State.advance_of_aligned ((isAligned4_iff _).mpr hpc)

/-- Settles O15: each branch is `branchIf` on its condition, which only moves `pc` on either side. -/
theorem branchResults : Obligations.BranchResults := by
  intro s rs1 rs2 off hpc p hp
  obtain ⟨c, hc, he⟩ := exec_branch (s := s) (off := off) hp
  constructor
  · intro htaken hoff
    obtain rfl : c = true := hc.mpr htaken
    exact ⟨_, he.trans (s.branchIf_taken (toInt_add_aligned hpc hoff)), .of_pc s _, rfl⟩
  · intro hnot
    obtain rfl : c = false := Bool.eq_false_iff.mpr fun h => hnot (hc.mp h)
    exact ⟨_, he.trans (State.branchIf_not_taken hpc off), .of_pc s _, rfl⟩

end Sys2Proof.Machine
end

section
/-! PROOFS. The stores are all the ways a program writes memory or a device (spec/44_stores.md R184). -/

namespace Sys2Proof.Machine

open Sys2Proof

/-- Settles O34: of what a completed instruction can have done, only a store's access writes memory or a device. -/
theorem onlyStoresWriteMemoryOrDevices : Obligations.OnlyStoresWriteMemoryOrDevices := by
  intro i s t he hi
  obtain ⟨hmem, hdev, -⟩ := exec_of_not_store he hi
  exact ⟨hmem, hdev⟩

end Sys2Proof.Machine
end

section
/-! PROOFS. The nineteen instructions that compute on registers and immediates (spec/45_op_imm.md, spec/46_op.md): sums,
bitwise operations, shifts and comparisons. -/

namespace Sys2Proof.Machine

open Sys2Proof

/-! ### Sums and differences (45_op_imm.md R191; 46_op.md R206, R207) -/

/-- Word addition is the sum of the signed values, wrapped (the spec's own decision D4). -/
theorem ofInt_toInt_add (a b : Word) : BitVec.ofInt 32 (a.toInt + b.toInt) = a + b := by
  rw [BitVec.ofInt_add, BitVec.ofInt_toInt, BitVec.ofInt_toInt]

/-- Word subtraction is the difference of the signed values, wrapped (the spec's own decision D4). -/
theorem ofInt_toInt_sub (a b : Word) : BitVec.ofInt 32 (a.toInt - b.toInt) = a - b := by
  apply BitVec.eq_of_toInt_eq
  rw [BitVec.toInt_ofInt, BitVec.toInt_sub]

/-- Settles O17: each writes the wrapped sum or difference; ADDI's is that of the immediate's signed value. -/
theorem addSubResults : Obligations.AddSubResults := by
  intro s rd rs1 rs2 imm hpc
  refine ⟨?addi, ?add, ?sub⟩
  case addi =>
    rw [← add_sext]
    exact addi_resultIs hpc rd rs1 imm
  case add =>
    rw [ofInt_toInt_add]
    exact resultIs_of_writeBack rfl hpc
  case sub =>
    rw [ofInt_toInt_sub]
    exact resultIs_of_writeBack rfl hpc

/-! ### Bitwise results (45_op_imm.md R195, R198, R199; 46_op.md R211, R214, R215) -/

/-- An instruction that writes back a word with the bits `f` has a result with those bits. -/
theorem exists_resultIs_of_bits {i : Instr} {s : State} {rd : RegIdx} {v : Word} {f : Nat → Bool}
    (he : exec i s = s.writeBack rd v) (hpc : s.pc.toNat % 4 = 0) (hf : ∀ j, j < 32 → v.getLsbD j = f j) :
    ∃ v : Word, ResultIs i s rd v ∧ ∀ j, j < 32 → v.getLsbD j = f j :=
  ⟨v, resultIs_of_writeBack he hpc, hf⟩

/-- Settles O18: each operation acts bit by bit, and an immediate's bits past its last are copies of it. -/
theorem logicResults : Obligations.LogicResults := by
  intro s rd rs1 rs2 imm hpc p hp
  have himm : ∀ j, j < 32 → (immI imm).getLsbD j = imm.getLsbD (min j 11) := fun _ hj => getLsbD_sext imm hj
  simp only [List.mem_cons, List.not_mem_nil, or_false] at hp
  obtain rfl | rfl | rfl | rfl | rfl | rfl := hp
  · exact exists_resultIs_of_bits rfl hpc fun j hj => by rw [BitVec.getLsbD_xor, himm j hj]
  · exact exists_resultIs_of_bits rfl hpc fun j hj => by rw [BitVec.getLsbD_or, himm j hj]
  · exact exists_resultIs_of_bits rfl hpc fun j hj => by rw [BitVec.getLsbD_and, himm j hj]
  · exact exists_resultIs_of_bits rfl hpc fun j _ => BitVec.getLsbD_xor
  · exact exists_resultIs_of_bits rfl hpc fun j _ => BitVec.getLsbD_or
  · exact exists_resultIs_of_bits rfl hpc fun j _ => BitVec.getLsbD_and

/-! ### Shifts (45_op_imm.md R192, R196, R197; 46_op.md R205, R208, R212, R213) -/

/-- The low five bits of a register are its value modulo 32 (the spec's own decision D10). -/
theorem toNat_shiftAmount (v : Word) : (shiftAmount v).toNat = v.toNat % 32 := by
  rw [shiftAmount, BitVec.extractLsb'_toNat, Nat.shiftRight_zero]

section
variable (a : Word) (n : BitVec 5) {j : Nat} (hj : j < 32)
include hj

theorem getLsbD_shiftLeft :
    (shiftLeft a n).getLsbD j = (decide (n.toNat ≤ j) && a.getLsbD (j - n.toNat)) := by
  rw [shiftLeft, BitVec.getLsbD_shiftLeft, decide_eq_true hj, Bool.true_and, ← decide_not]
  simp only [Nat.not_lt]

theorem getLsbD_shiftRightArith :
    (shiftRightArith a n).getLsbD j = a.getLsbD (min (j + n.toNat) 31) := by
  rw [shiftRightArith, BitVec.getLsbD_sshiftRight, decide_eq_false (Nat.not_le.mpr hj), Bool.not_false, Bool.true_and,
    Nat.add_comm n.toNat, BitVec.msb_eq_getLsbD_last]
  split
  next h => rw [Nat.min_eq_left (by omega)]
  next h => rw [Nat.min_eq_right (by omega)]

end

/-- A bit past 31 of the word is 0, which is what enters. -/
theorem getLsbD_shiftRightLogical (a : Word) (n : BitVec 5) (j : Nat) :
    (shiftRightLogical a n).getLsbD j = (decide (j + n.toNat ≤ 31) && a.getLsbD (j + n.toNat)) := by
  rw [shiftRightLogical, BitVec.getLsbD_ushiftRight, Nat.add_comm n.toNat]
  by_cases h : j + n.toNat ≤ 31
  · rw [decide_eq_true h, Bool.true_and]
  · rw [decide_eq_false h, Bool.false_and, BitVec.getLsbD_of_ge _ _ (by omega)]

/-- Settles O19: each shift moves the bits by its amount; a register's amount is its low five bits. -/
theorem shiftResults : Obligations.ShiftResults := by
  intro s rd rs1 rs2 shamt hpc p hp
  rw [← toNat_shiftAmount] at hp
  simp only [List.mem_cons, List.not_mem_nil, or_false] at hp
  obtain rfl | rfl | rfl | rfl | rfl | rfl := hp
  · exact exists_resultIs_of_bits rfl hpc fun j hj => getLsbD_shiftLeft _ _ hj
  · exact exists_resultIs_of_bits rfl hpc fun j _ => getLsbD_shiftRightLogical _ _ j
  · exact exists_resultIs_of_bits rfl hpc fun j hj => getLsbD_shiftRightArith _ _ hj
  · exact exists_resultIs_of_bits rfl hpc fun j hj => getLsbD_shiftLeft _ _ hj
  · exact exists_resultIs_of_bits rfl hpc fun j _ => getLsbD_shiftRightLogical _ _ j
  · exact exists_resultIs_of_bits rfl hpc fun j hj => getLsbD_shiftRightArith _ _ hj

/-! ### Comparisons (45_op_imm.md R193, R194; 46_op.md R209, R210) -/

theorem truthWord_decide (p : Prop) [Decidable p] : truthWord (decide p) = if p then 1#32 else 0#32 := by
  simp only [truthWord, decide_eq_true_eq]

/-- An instruction that writes back the truth of a condition has the result 1 or 0. -/
theorem resultIs_of_truthWord {i : Instr} {s : State} {rd : RegIdx} {p : Prop} [Decidable p]
    (he : exec i s = s.writeBack rd (truthWord (decide p))) (hpc : s.pc.toNat % 4 = 0) :
    ResultIs i s rd (if p then 1#32 else 0#32) := by
  rw [← truthWord_decide]
  exact resultIs_of_writeBack he hpc

theorem toInt_immI (imm : BitVec 12) : (immI imm).toInt = imm.toInt :=
  BitVec.toInt_signExtend_of_le (by decide)

/-- The sign-extended immediate read as unsigned is its signed value modulo 2^32 (45_op_imm.md R194). -/
theorem toNat_immI (imm : BitVec 12) : ((immI imm).toNat : Int) = imm.toInt % 2 ^ 32 := by
  rw [immI, sext_eq_ofInt, BitVec.toNat_ofInt]
  omega

/-- Settles O20: each writes the truth of its comparison, the immediate read as its sign extension. -/
theorem setLessResults : Obligations.SetLessResults := by
  intro s rd rs1 rs2 imm hpc
  refine ⟨?slti, ?sltiu, ?slt, ?sltu⟩
  case slti =>
    rw [← toInt_immI]
    exact resultIs_of_truthWord rfl hpc
  case sltiu =>
    simp only [← toNat_immI, Int.ofNat_lt]
    exact resultIs_of_truthWord rfl hpc
  case slt => exact resultIs_of_truthWord rfl hpc
  case sltu => exact resultIs_of_truthWord rfl hpc

end Sys2Proof.Machine
end

section
/-! PROOFS. MRET (spec/47_system.md): what it does at an aligned `mepc` and at any other, the boundary right after it, and
the address a handler returns to. -/

namespace Sys2Proof.Machine

open Sys2Proof

/-! ### MRET by the alignment of `mepc` (47_system.md R220, R222) -/

theorem exec_mret_of_aligned {s : State} (h : isAligned4 s.mepc = true) :
    exec .mret s = .next { s with inIrq := false, pc := s.mepc } :=
  State.goTo_next.mpr ⟨h, rfl⟩

theorem exec_mret_of_misaligned {s : State} (h : isAligned4 s.mepc = false) :
    exec .mret s = .fault (.misalignedTarget s.mepc s.pc) :=
  State.goTo_fault.mpr ⟨h, rfl⟩

/-- Settles O43: MRET ends at `mepc`, and what it writes besides `pc` is `in_irq`. -/
theorem mretResults : Obligations.MretResults := by
  intro s
  rw [ne_eq, ← isAligned4_iff]
  constructor
  · intro ha
    exact ⟨_, exec_mret_of_aligned ha, rfl, rfl, rfl, fun _ => rfl, fun _ => rfl,
      ⟨rfl, rfl, rfl, rfl, rfl, rfl, rfl, rfl⟩, ⟨rfl, rfl⟩, rfl, rfl, rfl⟩
  · intro ha
    exact exec_mret_of_misaligned (Bool.eq_false_iff.mpr ha)

/-- Settles O44: entry saves the next address of the interrupted instruction, which is a multiple of 4, so MRET completes
there. -/
theorem returnGoesToInterruptedAddress : Obligations.ReturnGoesToInterruptedAddress := by
  intro i s t h he hmepc
  rw [State.takeInterrupt_mepc] at hmepc
  have ha : isAligned4 h.mepc = true := hmepc ▸ exec_pc_aligned he
  exact ⟨_, exec_mret_of_aligned ha, hmepc⟩

/-! ### The boundary where no interrupt is taken (60_exceptions.md R240, R241) -/

/-- The interrupt test of a completed instruction is at the state it left (00_scope.md R14). -/
theorem State.cycle_of_runInstr {s t : State} (h : s.runInstr = .next t) (p : IrqPolicy) :
    s.cycle p = .next (boundary p s t) := by
  rw [State.cycle, h, mapNext_next]

theorem boundary_sameDevices (p : IrqPolicy) (b a : State) : SameDevices a (boundary p b a) where
  ctrl := boundary_ctrl p b a
  data := boundary_data p b a
  textOut := boundary_textOut p b a
  dir := boundary_dir p b a
  ien := boundary_ien p b a
  rev := boundary_rev p b a
  fev := boundary_fev p b a
  val := boundary_val p b a

/-- A boundary that takes no interrupt, be it not eligible or passed over by the policy, writes only the model's account of
the waiting. -/
theorem boundary_of_not_taken {p : IrqPolicy} {b a : State} (h : a.isEligible = true → takesAt p b a = false) :
    (boundary p b a).pc = a.pc ∧ (boundary p b a).inIrq = a.inIrq ∧ (boundary p b a).mepc = a.mepc := by
  obtain ⟨he, htakes, -⟩ | ⟨-, -, hb⟩ | ⟨-, ⟨-, hb⟩ | ⟨-, hb⟩⟩ := boundary_cases p b a
  · exact absurd htakes (by simp [h he])
  all_goals rw [hb]; exact ⟨rfl, rfl, rfl⟩

/-- The one eligible boundary `immediate` passes over is where `in_irq` fell (60_exceptions.md R241). -/
theorem takesAt_immediate_eq_false {b a : State} :
    takesAt .immediate b a = false ↔ b.inIrq = true ∧ a.inIrq = false := by
  simp [takesAt]

/-- Settles O40: `in_irq` fell, so `immediate` passes over this boundary, whatever the request line says. -/
theorem immediateSkipsBoundaryAfterMret : Obligations.ImmediateSkipsBoundaryAfterMret := by
  intro s t hrun hs ht
  have hskip : takesAt .immediate s t = false := takesAt_immediate_eq_false.mpr ⟨hs, ht⟩
  obtain ⟨hpc, hirq, hmepc⟩ := boundary_of_not_taken fun _ => hskip
  exact ⟨_, State.cycle_of_runInstr hrun .immediate, hpc, hirq.trans ht, hmepc, boundary_regs _ s t, boundary_mem _ s t,
    boundary_sameDevices _ s t⟩

end Sys2Proof.Machine
end

section
/-! PROOFS. Loads from and stores to the device registers (spec/60_exceptions.md R250 to R264), and the bitmap's raster
order (R268). -/

namespace Sys2Proof.Machine

open Sys2Proof

/-! ### Loads: what an access to a device register answers (60_exceptions.md R253, R255, R258, R263) -/

/-- The two registers of the text input answer byte loads, with no side effect. -/
theorem State.memRead_textInput (s : State) {a : Word} (ha : a = 0xB0000000#32 ∨ a = 0xB0000001#32) :
    s.memRead a .byte = .ok (zext (s.loadTextInput a), s) := by
  have hc : checkAccess a .byte .load = .ok .textInput := by
    rcases ha with rfl | rfl <;> exact checkAccess_ok.mpr ⟨rfl, rfl, rfl⟩
  rw [State.memRead, hc]

/-- The text output's register answers byte loads with a free value; the model counts them. -/
theorem State.memRead_textOutput (s : State) {a : Word} (ha : a = 0xC0000000#32) :
    s.memRead a .byte = .ok (zext s.loadTextOut, { s with textReads := s.textReads + 1 }) := by
  have hc : checkAccess a .byte .load = .ok .textOutput := by subst ha; exact checkAccess_ok.mpr ⟨rfl, rfl, rfl⟩
  rw [State.memRead, hc]

/-- The addresses of the five GPIO registers (60_exceptions.md R260). -/
def gpioRegisters : List Word := [0xD0000000#32, 0xD0000004#32, 0xD0000008#32, 0xD000000C#32, 0xD0000010#32]

/-- A GPIO register admits word loads and word stores (20_memory.md R68). -/
theorem checkAccess_gpio {a : Word} (ha : a ∈ gpioRegisters) {kind : AccessKind} (hk : kind ≠ .fetch) :
    checkAccess a .word kind = .ok .gpio := by
  have hmap : a.toNat % 4 = 0 ∧ regionOf a = some .gpio := by
    simp only [gpioRegisters, List.mem_cons, List.not_mem_nil, or_false] at ha
    rcases ha with rfl | rfl | rfl | rfl | rfl <;> exact ⟨rfl, rfl⟩
  obtain ⟨halign, hregion⟩ := hmap
  refine checkAccess_ok.mpr ⟨halign, hregion, ?_⟩
  cases kind with
  | fetch => exact absurd rfl hk
  | load | store => rfl

/-- A GPIO register answers word loads, with no side effect. -/
theorem State.memRead_gpio (s : State) {a : Word} (ha : a ∈ gpioRegisters) :
    s.memRead a .word = .ok (s.loadGpio a, s) := by
  rw [State.memRead, checkAccess_gpio ha (by simp)]

/-- A load whose access has no side effect writes what the access answers, widened, and nothing else. -/
theorem resultIs_of_memRead {i : Instr} {s : State} {rd : RegIdx} {a v : Word} {size : AccessSize} {widen : Word → Word}
    (he : exec i s = s.loadInto rd a size widen) (hpc : s.pc.toNat % 4 = 0) (hr : s.memRead a size = .ok (v, s)) :
    ResultIs i s rd (widen v) :=
  resultIs_of_writeBack (he.trans (State.loadInto_of_ok hr)) hpc

theorem setWidth_zext (b : Byte) : (zext b).setWidth 8 = b := BitVec.setWidth_setWidth_of_le b (by decide)

/-- The two byte loads of a register that answers `b` with no side effect: zero- and sign-extended. -/
theorem byteLoads_resultIs {s : State} {rs1 : RegIdx} {imm : BitVec 12} {b : Byte} (hpc : s.pc.toNat % 4 = 0)
    (hr : s.memRead (s.loadAddr rs1 imm) .byte = .ok (zext b, s)) (rd : RegIdx) :
    ResultIs (.lbu rd rs1 imm) s rd (BitVec.ofNat 32 b.toNat) ∧
      ResultIs (.lb rd rs1 imm) s rd (BitVec.ofInt 32 b.toInt) := by
  have hlbu := resultIs_of_memRead (i := .lbu rd rs1 imm) (rd := rd) rfl hpc hr
  have hlb := resultIs_of_memRead (i := .lb rd rs1 imm) (rd := rd) rfl hpc hr
  rw [setWidth_zext, zext_eq_ofNat] at hlbu
  rw [setWidth_zext, sext_eq_ofInt] at hlb
  exact ⟨hlbu, hlb⟩

/-- Bits 7 and 6 come from the first part, bits 5 to 0 from the second. -/
theorem getLsbD_joinCtrl (hi : Byte) (lo : BitVec 6) {j : Nat} (hj : j < 8) :
    (joinCtrl hi lo).getLsbD j = if j < 6 then lo.getLsbD j else hi.getLsbD j := by
  have hhigh : ¬j < 6 → j - 6 < 2 ∧ 6 + (j - 6) = j := by omega
  rw [joinCtrl, BitVec.getLsbD_append]
  split
  next => rfl
  next h => simp [hhigh h]

/-- Settles O22: the byte `ctrl` answers joins its bits 7 and 6 with free ones; `data` answers itself. -/
theorem textInputLoadResults : Obligations.TextInputLoadResults := by
  intro s rd rs1 imm hpc
  constructor
  · intro ha
    have hr := s.memRead_textInput (.inl ha)
    have hctrl : s.loadTextInput (s.loadAddr rs1 imm) = s.loadCtrl := if_pos ha
    rw [hctrl] at hr
    exact ⟨s.loadCtrl, getLsbD_joinCtrl _ _ (by decide), getLsbD_joinCtrl _ _ (by decide), byteLoads_resultIs hpc hr rd⟩
  · intro ha
    have hr := s.memRead_textInput (.inr ha)
    have hdata : s.loadTextInput (s.loadAddr rs1 imm) = s.data := by rw [ha]; rfl
    rw [hdata] at hr
    exact byteLoads_resultIs hpc hr rd

/-- A byte load from the text output writes the free byte, widened, counts the load, and changes nothing else. -/
theorem State.loadInto_textOutput {s : State} {a : Word} (hpc : s.pc.toNat % 4 = 0) (ha : a = 0xC0000000#32) (rd : RegIdx)
    (widen : Word → Word) : ∃ t, s.loadInto rd a .byte widen = .next t ∧ WritesReg s t rd (widen (zext s.loadTextOut)) ∧
      SameMemory s t ∧ SameDevices s t ∧ SameControl s t ∧ t.changes = s.changes ∧ t.textReads = s.textReads + 1 ∧
      t.pc = s.pc + 4#32 := by
  have halign : isAligned4 s.pc = true := (isAligned4_iff _).mpr hpc
  have hwrite := State.writeBack_of_aligned (s := { s with textReads := s.textReads + 1 }) halign rd
    (widen (zext s.loadTextOut))
  refine ⟨_, (State.loadInto_of_ok (s.memRead_textOutput ha)).trans hwrite, fun r => ?_, fun b => ?_, ?_, ?_, ?_, ?_, rfl⟩
  · exact State.x_setX { s with textReads := s.textReads + 1 } rd r _
  · simp
  · constructor <;> simp
  · constructor <;> simp
  · simp
  · simp

/-- Settles O23: both loads answer the same free byte. -/
theorem textOutputLoadResults : Obligations.TextOutputLoadResults := by
  intro s rd rs1 imm hpc ha
  obtain ⟨t, ht, hzero, htframe⟩ := State.loadInto_textOutput hpc ha rd fun v => zext (v.setWidth 8)
  obtain ⟨u, hu, hsign, huframe⟩ := State.loadInto_textOutput hpc ha rd fun v => sext (v.setWidth 8)
  rw [setWidth_zext, zext_eq_ofNat] at hzero
  rw [setWidth_zext, sext_eq_ofInt] at hsign
  refine ⟨s.loadTextOut, t, u, ht, hu, hzero, hsign, fun r hr => ?_⟩
  simp only [List.mem_cons, List.not_mem_nil, or_false] at hr
  rcases hr with rfl | rfl
  · exact htframe
  · exact huframe

/-- Settles O24: each register's address selects that register. -/
theorem gpioLoadResults : Obligations.GpioLoadResults := by
  intro s rd rs1 imm hpc p hp ha
  have hreg : p.1 ∈ gpioRegisters ∧ s.loadGpio p.1 = p.2 := by
    simp only [List.mem_cons, List.not_mem_nil, or_false] at hp
    rcases hp with rfl | rfl | rfl | rfl | rfl <;> exact ⟨by simp [gpioRegisters], rfl⟩
  obtain ⟨hmem, hvalue⟩ := hreg
  have hr := s.memRead_gpio hmem
  rw [hvalue, ← ha] at hr
  exact resultIs_of_memRead (i := .lw rd rs1 imm) (widen := fun v => v) rfl hpc hr

/-! ### Stores (60_exceptions.md R254, R257, R264) -/

/-- A store whose checks answer a region, from an aligned `pc`, has its effect there, is counted and goes on. -/
theorem State.storeFrom_of_check {s : State} {rs2 : RegIdx} {a : Word} {size : AccessSize} {r : Region}
    (hpc : s.pc.toNat % 4 = 0) (hc : checkAccess a size .store = .ok r) :
    s.storeFrom rs2 a size =
      .next { s.storeTo r a size (s.x rs2) with changes := s.changes + 1, pc := s.pc + 4#32 } := by
  obtain ⟨-, hkeep, -⟩ := s.storeTo_core r a size (s.x rs2)
  have hw : s.memWrite a size (s.x rs2) = .ok { s.storeTo r a size (s.x rs2) with changes := s.changes + 1 } := by
    rw [State.memWrite, hc]
  rw [State.storeFrom_of_ok hw (by rw [hkeep]; exact (isAligned4_iff _).mpr hpc), hkeep]

/-- Settles O28: the effect is `storeCtrl`, which keeps bits 5 to 0 and takes the two others from the register. -/
theorem ctrlStoreResults : Obligations.CtrlStoreResults := by
  intro s rs1 rs2 imm hpc ha
  have hc : checkAccess (s.storeAddr rs1 imm) .byte .store = .ok .textInput := by
    rw [ha]; exact checkAccess_ok.mpr ⟨rfl, rfl, rfl⟩
  have hbit {j : Nat} (hj : j < 8) :
      (joinCtrl ((s.x rs2).setWidth 8) (s.ctrl.extractLsb' 0 6)).getLsbD j =
        if j < 6 then s.ctrl.getLsbD j else (s.x rs2).getLsbD j := by
    rw [getLsbD_joinCtrl _ _ hj]
    split
    next h => simp [h]
    next h => simp [hj]
  refine ⟨_, State.storeFrom_of_check hpc hc, rfl, hbit (by decide), hbit (by decide), fun j hj => ?_,
    by constructor <;> rfl, fun _ => rfl, fun _ => rfl, by constructor <;> rfl, rfl, rfl⟩
  exact (hbit (by omega)).trans (if_pos hj)

/-- Settles O29: the effect is `storeTextOut` of the register's low byte. -/
theorem textOutputStoreResults : Obligations.TextOutputStoreResults := by
  intro s rs1 rs2 imm hpc ha
  have hc : checkAccess (s.storeAddr rs1 imm) .byte .store = .ok .textOutput := by
    rw [ha]; exact checkAccess_ok.mpr ⟨rfl, rfl, rfl⟩
  refine ⟨_, State.storeFrom_of_check hpc hc, rfl, ?_, by constructor <;> rfl, fun _ => rfl, fun _ => rfl,
    by constructor <;> rfl, rfl, rfl⟩
  rw [BitVec.ofNat_toNat]
  rfl

/-- A store to a GPIO register replaces that register, `val` but for its input pins, and no other. -/
theorem State.storeGpio_registers (s : State) {a : Word} (ha : a ∈ gpioRegisters) (v : Word) :
    (s.storeGpio a v).dir = (if a = 0xD0000000#32 then v else s.dir) ∧
    (s.storeGpio a v).ien = (if a = 0xD0000004#32 then v else s.ien) ∧
    (s.storeGpio a v).rev = (if a = 0xD0000008#32 then v else s.rev) ∧
    (s.storeGpio a v).fev = (if a = 0xD000000C#32 then v else s.fev) ∧
    (s.storeGpio a v).val = (if a = 0xD0000010#32 then gpioVal s.dir s.val v else s.val) := by
  simp only [gpioRegisters, List.mem_cons, List.not_mem_nil, or_false] at ha
  rcases ha with rfl | rfl | rfl | rfl | rfl <;> exact ⟨rfl, rfl, rfl, rfl, rfl⟩

/-- A stored `val`, pin by pin: output pins take the new bit, input pins keep their level (60_exceptions.md R264). -/
theorem getLsbD_gpioVal (dir val v : Word) {j : Nat} (hj : j < 32) :
    (gpioVal dir val v).getLsbD j = if dir.getLsbD j = false then v.getLsbD j else val.getLsbD j := by
  simp only [gpioVal, BitVec.getLsbD_or, BitVec.getLsbD_and, BitVec.getLsbD_not, hj]
  cases dir.getLsbD j <;> simp

/-- Settles O30: the effect is `storeGpio` of the whole word. -/
theorem gpioStoreResults : Obligations.GpioStoreResults := by
  rintro s rs1 rs2 imm hpc a ha rfl
  obtain ⟨hdir, hien, hrev, hfev, hval⟩ := s.storeGpio_registers ha (s.x rs2)
  refine ⟨_, State.storeFrom_of_check hpc (checkAccess_gpio ha (by simp)), rfl, hdir, hien, hrev, hfev, fun j hj => ?_,
    by simp [State.storeTo], by simp [State.storeTo], by simp [State.storeTo], fun r => ?_, fun b => ?_,
    by constructor <;> simp [State.storeTo], by simp [State.storeTo], rfl⟩
  · refine (congrArg (BitVec.getLsbD · j) hval).trans ?_
    by_cases hv : s.storeAddr rs1 imm = 0xD0000010#32
    · simp only [hv, if_true, true_and, getLsbD_gpioVal _ _ _ hj]
    · simp only [hv, if_false, false_and]
  · exact State.x_congr (s.storeGpio_regs _ _) r
  · exact congrArg (Memory.read · b) (s.storeGpio_mem _ _)

/-! ### The bitmap (60_exceptions.md R268) -/

theorem pixelAddr_eq (x y : Fin 32) : pixelAddr x y = 0xC00 + 32 * y.val + x.val := rfl

/-- Settles O52: row and column are quotient and remainder by 32 of the offset in the bitmap. -/
theorem bitmapRasterOrder : Obligations.BitmapRasterOrder := by
  refine ⟨fun s x y => rfl, fun a ha => ?_⟩
  obtain ⟨-, hbitmap, -⟩ := addressMap a
  obtain ⟨hlow, hhigh⟩ := hbitmap.mp ha
  refine ⟨(⟨(a.toNat - 0xC00) % 32, by omega⟩, ⟨(a.toNat - 0xC00) / 32, by omega⟩), ?_, ?_⟩
  · simp only [pixelAddr_eq]
    omega
  · rintro ⟨x, y⟩ hxy
    simp only [pixelAddr_eq] at hxy
    simp only [Prod.mk.injEq, Fin.ext_iff]
    omega

end Sys2Proof.Machine
end

section
/-! PROOFS. The request line, the host's actions on the devices, and event bits (spec/60_exceptions.md R246, R251, R261,
R265, R270). -/

namespace Sys2Proof.Machine

open Sys2Proof

/-! ### The request line (60_exceptions.md R246) -/

theorem ne_zero_iff_exists_getLsbD (v : Word) : v ≠ 0#32 ↔ ∃ j, j < 32 ∧ v.getLsbD j = true := by
  constructor
  · intro hv
    by_contra hnone
    refine hv (BitVec.eq_of_getLsbD_eq fun j hj => ?_)
    rw [BitVec.getLsbD_zero, Bool.eq_false_iff]
    exact fun hbit => hnone ⟨j, hj, hbit⟩
  · rintro ⟨j, -, hbit⟩ rfl
    rw [BitVec.getLsbD_zero] at hbit
    cases hbit

/-- Some enabled pin has an event: a bit of the word the hardware compares with zero is up. -/
theorem State.irqGpio_iff (s : State) : s.irqGpio = true ↔
    ∃ j, j < 32 ∧ s.ien.getLsbD j = true ∧ (s.rev.getLsbD j = true ∨ s.fev.getLsbD j = true) := by
  simp only [State.irqGpio, bne_iff_ne, ne_zero_iff_exists_getLsbD, BitVec.getLsbD_and, BitVec.getLsbD_or,
    Bool.and_eq_true, Bool.or_eq_true]

/-- Settles O38: the line is the text input's or the GPIO's. -/
theorem requestLine : Obligations.RequestLine := by
  intro s
  rw [State.irqRequest, Bool.or_eq_true, s.irqGpio_iff, State.irqText, Bool.and_eq_true]

/-! ### A typed character (60_exceptions.md R251) -/

/-- Settles O46: 40 is bit 6 alone, and the action writes `data`, `ctrl` and the model's count only. -/
theorem typedCharacter : Obligations.TypedCharacter := by
  intro s c
  refine ⟨rfl, fun j hj => ?_, by constructor <;> rfl, rfl, rfl, rfl, by constructor <;> rfl⟩
  have hmask : ∀ j < 8, (0x40#8).getLsbD j = decide (j = 6) := by decide
  change (s.ctrl ||| 0x40#8).getLsbD j = _
  rw [BitVec.getLsbD_or, hmask j hj, Bool.or_comm]

/-! ### A pin brought to a level (60_exceptions.md R261) -/

theorem getLsbD_pinMask (pin : Fin 32) {j : Nat} (hj : j < 32) : (pinMask pin).getLsbD j = decide (j = pin.val) := by
  rw [pinMask, BitVec.getLsbD_shiftLeft, BitVec.getLsbD_one]
  grind

theorem getLsbD_setBit (w : Word) (pin : Fin 32) (level : Bool) {j : Nat} (hj : j < 32) :
    (setBit w pin level).getLsbD j = if j = pin.val then level else w.getLsbD j := by
  cases level
  case true =>
    rw [setBit, if_pos rfl, BitVec.getLsbD_or, getLsbD_pinMask pin hj]
    grind
  case false =>
    rw [setBit, if_neg Bool.false_ne_true, BitVec.getLsbD_and, BitVec.getLsbD_not, getLsbD_pinMask pin hj]
    grind

section
variable (s : State) (pin : Fin 32) (level : Bool) {j : Nat} (hj : j < 32)
include hj

/-- An input pin takes the level. -/
theorem State.getLsbD_setPin_val : (s.setPin pin level).val.getLsbD j =
    if j = pin.val ∧ s.dir.getLsbD j = true then level else s.val.getLsbD j := by
  unfold State.setPin
  split
  next h => grind [getLsbD_setBit]
  next h => grind

/-- A rising edge on an input pin sets its bit. -/
theorem State.getLsbD_setPin_rev : (s.setPin pin level).rev.getLsbD j =
    (s.rev.getLsbD j || (decide (j = pin.val) && s.dir.getLsbD j && level && !s.val.getLsbD j)) := by
  unfold State.setPin
  split
  next h => cases level <;> grind [getLsbD_pinMask]
  next h => grind

/-- A falling edge on an input pin sets its bit. -/
theorem State.getLsbD_setPin_fev : (s.setPin pin level).fev.getLsbD j =
    (s.fev.getLsbD j || (decide (j = pin.val) && s.dir.getLsbD j && !level && s.val.getLsbD j)) := by
  unfold State.setPin
  split
  next h => cases level <;> grind [getLsbD_pinMask]
  next h => grind

end

/-- Settles O47: the action is `setPin` and one more change. -/
theorem pinChange : Obligations.PinChange := fun s pin level _ hj =>
  ⟨s.getLsbD_setPin_val pin level hj, s.getLsbD_setPin_rev pin level hj, s.getLsbD_setPin_fev pin level hj,
    s.setPin_dir pin level, s.setPin_ien pin level, s.setPin_ctrl pin level, s.setPin_data pin level⟩

/-! ### The host's turn (60_exceptions.md R270) -/

/-- Every bit that is up in `a` is up in `b`. -/
def BitsKept {n : Nat} (a b : BitVec n) : Prop := a &&& b = a

theorem bitsKept_iff {n : Nat} {a b : BitVec n} :
    BitsKept a b ↔ ∀ j, j < n → a.getLsbD j = true → b.getLsbD j = true := by
  constructor
  · intro h j _ ha
    rw [BitsKept] at h
    rw [← h, BitVec.getLsbD_and, Bool.and_eq_true] at ha
    exact ha.2
  · intro h
    refine BitVec.eq_of_getLsbD_eq fun j hj => ?_
    rw [BitVec.getLsbD_and, Bool.and_eq_left_iff_imp]
    exact h j hj

theorem BitsKept.refl {n : Nat} (a : BitVec n) : BitsKept a a := BitVec.and_self

theorem BitsKept.trans {n : Nat} {a b c : BitVec n} (hab : BitsKept a b) (hbc : BitsKept b c) : BitsKept a c :=
  bitsKept_iff.mpr fun j hj ha => bitsKept_iff.mp hbc j hj (bitsKept_iff.mp hab j hj ha)

/-- What the host keeps of the devices: the program's enables and outputs, and every flag that is up. -/
structure HostKeeps (s t : State) : Prop where
  dir : t.dir = s.dir
  ien : t.ien = s.ien
  outputPins : t.outputPins = s.outputPins
  rev : BitsKept s.rev t.rev
  fev : BitsKept s.fev t.fev
  ctrl : BitsKept s.ctrl t.ctrl

theorem HostKeeps.refl (s : State) : HostKeeps s s := ⟨rfl, rfl, rfl, .refl _, .refl _, .refl _⟩

theorem HostKeeps.trans {s t u : State} (h : HostKeeps s t) (h' : HostKeeps t u) : HostKeeps s u where
  dir := h'.dir.trans h.dir
  ien := h'.ien.trans h.ien
  outputPins := h'.outputPins.trans h.outputPins
  rev := h.rev.trans h'.rev
  fev := h.fev.trans h'.fev
  ctrl := h.ctrl.trans h'.ctrl

theorem hostKeeps_hostAct (s : State) (a : HostAction) : HostKeeps s (s.hostAct a) := by
  cases a with
  | typeChar c =>
    obtain ⟨-, hctrl, -⟩ := typedCharacter s c
    refine ⟨rfl, rfl, rfl, .refl _, .refl _, bitsKept_iff.mpr fun j hj h => ?_⟩
    rw [hctrl j hj, h, Bool.or_true]
  | setPin pin level =>
    refine ⟨s.setPin_dir pin level, s.setPin_ien pin level, ?_, bitsKept_iff.mpr fun j hj h => ?_,
      bitsKept_iff.mpr fun j hj h => ?_, ?_⟩
    · refine BitVec.eq_of_getLsbD_eq fun j hj => ?_
      change ((s.setPin pin level).val &&& ~~~(s.setPin pin level).dir).getLsbD j = (s.val &&& ~~~s.dir).getLsbD j
      rw [BitVec.getLsbD_and, BitVec.getLsbD_and, s.getLsbD_setPin_val pin level hj, s.setPin_dir, BitVec.getLsbD_not]
      cases s.dir.getLsbD j <;> simp
    · exact (s.getLsbD_setPin_rev pin level hj).trans (by rw [h, Bool.true_or])
    · exact (s.getLsbD_setPin_fev pin level hj).trans (by rw [h, Bool.true_or])
    · exact (s.setPin_ctrl pin level).symm ▸ .refl _

theorem hostKeeps_hostActs (s : State) (as : List HostAction) : HostKeeps s (s.hostActs as) := by
  induction as generalizing s with
  | nil => exact .refl s
  | cons a as ih => exact (hostKeeps_hostAct s a).trans (ih _)

theorem hostKeeps_hostTurn (s : State) : HostKeeps s s.hostTurn := by
  unfold State.hostTurn
  split
  · exact .refl s
  next acts later _ =>
    have hpop : HostKeeps s { s with inputs := later } := ⟨rfl, rfl, rfl, .refl _, .refl _, .refl _⟩
    exact hpop.trans (hostKeeps_hostActs _ acts)

/-- With enables kept and flags only raised, a request that is up stays up. -/
theorem HostKeeps.irqRequest {s t : State} (h : HostKeeps s t) (hs : s.irqRequest = true) : t.irqRequest = true := by
  rw [requestLine] at hs ⊢
  rcases hs with ⟨h7, h6⟩ | ⟨j, hj, hien, hevent⟩
  · exact .inl ⟨bitsKept_iff.mp h.ctrl 7 (by decide) h7, bitsKept_iff.mp h.ctrl 6 (by decide) h6⟩
  · exact .inr ⟨j, hj, by rwa [h.ien], hevent.imp (bitsKept_iff.mp h.rev j hj) (bitsKept_iff.mp h.fev j hj)⟩

/-- Settles O48: each action keeps the outputs and enables and only raises flags, so a list of them does. -/
theorem hostTouchesOnlyInputs : Obligations.HostTouchesOnlyInputs := by
  intro s
  have h := hostKeeps_hostTurn s
  exact ⟨s.hostTurn_regs, s.hostTurn_pc, s.hostTurn_mepc, s.hostTurn_inIrq, s.hostTurn_mem, s.hostTurn_textOut, h.dir,
    h.ien, h.outputPins, h.rev, h.fev, h.ctrl, h.irqRequest⟩

/-- Settles O49: the host only raises event bits, and neither the instruction nor the boundary writes them. -/
theorem eventBitsAreSticky : Obligations.EventBitsAreSticky := by
  intro s u w i hf hd hi h
  rw [step_of_decode hf hd] at h
  obtain ⟨t, he, rfl⟩ := mapNext_eq_next.mp h
  obtain ⟨-, hdev, -⟩ := exec_of_not_store he hi
  have hhost := hostKeeps_hostTurn s
  rw [boundary_rev, boundary_fev, hdev.rev, hdev.fev]
  exact ⟨hhost.rev, hhost.fev⟩

end Sys2Proof.Machine
end

section
/-! PROOFS. Interrupt entry and the bound on its wait (spec/60_exceptions.md R240 to R244). -/

namespace Sys2Proof.Machine

open Sys2Proof

/-! ### What an instruction keeps of the interrupt state -/

/-- An instruction that completes was fetched and decoded. -/
theorem State.runInstr_next {s t : State} (h : s.runInstr = .next t) : ∃ i, exec i s = .next t := by
  cases hf : s.fetch with
  | error f => simp [State.runInstr_of_fetch_error hf] at h
  | ok w =>
    cases hd : decode w with
    | error e => simp [State.runInstr_of_decode_error hf hd] at h
    | ok i => exact ⟨i, (State.runInstr_of_decode hf hd).symm.trans h⟩

/-- No instruction enters a handler (10_state.md R41). -/
theorem State.runInstr_outside_handler {s t : State} (h : s.runInstr = .next t) (hs : s.inIrq = false) :
    t.inIrq = false := by
  obtain ⟨i, he⟩ := State.runInstr_next h
  by_cases hi : i = .mret
  · subst hi
    obtain ⟨-, rfl⟩ := State.goTo_next.mp he
    rfl
  · exact (exec_inIrq he hi).trans hs

theorem State.memWrite_waiting {s s' : State} {a v : Word} {size : AccessSize} (h : s.memWrite a size v = .ok s') :
    s'.waited = s.waited ∧ s'.episode = s.episode := by
  obtain ⟨r, -, rfl⟩ := State.memWrite_ok h
  obtain ⟨-, -, -, -, -, -, hwaited, hepisode, -⟩ := s.storeTo_core r a size v
  exact ⟨hwaited, hepisode⟩

/-- No instruction touches the model's account of the waiting (log 5). -/
theorem State.runInstr_waiting {s t : State} (h : s.runInstr = .next t) :
    t.waited = s.waited ∧ t.episode = s.episode := by
  obtain ⟨i, he⟩ := State.runInstr_next h
  obtain ⟨-, ⟨rd, v, k, -, -, -, ht⟩ | ⟨-, -, -, ht⟩ | ⟨-, -, a, size, v, s', hw, ht⟩ | ⟨-, ht⟩⟩ := exec_next he
  · rw [ht]; simp
  · rw [ht]; exact ⟨rfl, rfl⟩
  · rw [ht]; exact (State.memWrite_waiting hw :)
  · rw [ht]; exact ⟨rfl, rfl⟩

/-! ### The boundary by eligibility (60_exceptions.md R240, R241) -/

theorem State.isEligible_iff (s : State) : s.isEligible = true ↔ s.irqRequest = true ∧ s.inIrq = false := by
  simp [State.isEligible]

theorem State.isEligible_eq_false_iff (s : State) : s.isEligible = false ↔ s.irqRequest = false ∨ s.inIrq = true := by
  rw [State.isEligible, Bool.and_eq_false_iff, Bool.not_eq_false']

theorem boundary_of_taken {p : IrqPolicy} {b a : State} (he : a.isEligible = true) (ht : takesAt p b a = true) :
    boundary p b a = a.takeInterrupt.endWait := by
  rw [boundary, if_pos he, if_pos ht]

theorem boundary_of_wait {p : IrqPolicy} {b a : State} (he : a.isEligible = true) (ht : takesAt p b a = false) :
    boundary p b a = { a with waited := a.waited + 1 } := by
  rw [boundary, if_pos he, if_neg (by simp [ht])]

/-- Outside a handler `immediate` takes every eligible boundary. -/
theorem takesAt_immediate_of_outside {b : State} (hb : b.inIrq = false) (a : State) :
    takesAt .immediate b a = true := by
  simp [takesAt, hb]

/-- Settles O39: no instruction enters a handler, so the boundary is eligible, and `immediate` takes it. -/
theorem immediateEntry : Obligations.ImmediateEntry := by
  intro s t hrun hs hreq
  have he : t.isEligible = true := t.isEligible_iff.mpr ⟨hreq, State.runInstr_outside_handler hrun hs⟩
  have hb := boundary_of_taken he (takesAt_immediate_of_outside hs t)
  exact ⟨_, State.cycle_of_runInstr hrun .immediate, by rw [hb]; rfl, by rw [hb]; rfl, by rw [hb]; rfl,
    boundary_regs _ s t, boundary_mem _ s t, boundary_sameDevices _ s t, boundary_textReads _ s t,
    boundary_changes _ s t, boundary_inputs _ s t⟩

/-- Settles O41: the boundary is not eligible. -/
theorem noEntryUnlessEligible : Obligations.NoEntryUnlessEligible := by
  intro p s t hrun h
  have hne : t.isEligible = false := t.isEligible_eq_false_iff.mpr h
  obtain ⟨hpc, hirq, hmepc⟩ := boundary_of_not_taken (p := p) (b := s) (a := t) fun he => by simp [hne] at he
  exact ⟨_, State.cycle_of_runInstr hrun p, hpc, hmepc, hirq, boundary_regs p s t, boundary_mem p s t,
    boundary_sameDevices p s t⟩

/-- Settles O60: an eligible boundary is taken or waited at. -/
theorem entersOrGoesOn : Obligations.EntersOrGoesOn := by
  intro p s t hrun hreq hirq
  have he : t.isEligible = true := t.isEligible_iff.mpr ⟨hreq, hirq⟩
  refine ⟨_, State.cycle_of_runInstr hrun p, ?_⟩
  cases ht : takesAt p s t with
  | true => rw [boundary_of_taken he ht]; exact .inr rfl
  | false => rw [boundary_of_wait he ht]; exact .inl rfl

/-! ### The bound on the wait (60_exceptions.md R241) -/

/-- A boundary that stays eligible was let pass: the latency of the present spell was not yet used up, and one more boundary
of it is. -/
theorem boundary_still_eligible {p : IrqPolicy} {b a : State} (hb : b.inIrq = false)
    (h : (boundary p b a).isEligible = true) :
    a.waited < Config.irqLatency a.episode ∧ (boundary p b a).waited = a.waited + 1 ∧
      (boundary p b a).episode = a.episode := by
  obtain ⟨-, -, hu⟩ | ⟨-, hskip, hu⟩ | ⟨hne, ⟨-, hu⟩ | ⟨-, hu⟩⟩ := boundary_cases p b a
  · obtain ⟨-, houtside⟩ := (State.isEligible_iff _).mp (hu ▸ h)
    exact absurd houtside (by simp)
  · cases p with
    | immediate => rw [takesAt_immediate_of_outside hb] at hskip; cases hskip
    | anyBoundary => exact ⟨by simpa [takesAt] using hskip, by rw [hu], by rw [hu]⟩
  · rw [hu, hne] at h; cases h
  · rw [hu] at h
    exact absurd (hne.symm.trans h) (by simp)

/-- The same along a whole step, the host's turn included. -/
theorem cycle_still_eligible {p : IrqPolicy} {s u : State} (h : s.hostTurn.cycle p = .next u) (hs : s.isEligible = true)
    (hu : u.isEligible = true) :
    s.waited < Config.irqLatency s.episode ∧ u.waited = s.waited + 1 ∧ u.episode = s.episode := by
  obtain ⟨t, hrun, rfl⟩ := mapNext_eq_next.mp h
  obtain ⟨hwaited, hepisode⟩ := State.runInstr_waiting hrun
  rw [State.hostTurn_waited] at hwaited
  rw [State.hostTurn_episode] at hepisode
  obtain ⟨-, hirq⟩ := s.isEligible_iff.mp hs
  have hwait := boundary_still_eligible (s.hostTurn_inIrq.trans hirq) hu
  rwa [hwaited, hepisode] at hwait

/-- With `d` boundaries of the latency left, a run is not eligible within `d + 1` steps: while it stays so, each step uses
one up. -/
theorem exists_not_eligible {p : IrqPolicy} {run : Nat → State}
    (hrun : ∀ k, (run k).hostTurn.cycle p = .next (run (k + 1))) (d n : Nat)
    (hd : Config.irqLatency (run n).episode ≤ (run n).waited + d) :
    ∃ m, n ≤ m ∧ m ≤ n + d + 1 ∧ (run m).isEligible = false := by
  by_cases hn : (run n).isEligible = true
  · by_cases hn' : (run (n + 1)).isEligible = true
    · obtain ⟨hleft, hwaited, hepisode⟩ := cycle_still_eligible (hrun n) hn hn'
      cases d with
      | zero => omega
      | succ d =>
        obtain ⟨m, hle, hge, hm⟩ := exists_not_eligible hrun d (n + 1) (by rw [hwaited, hepisode]; omega)
        exact ⟨m, by omega, by omega, hm⟩
    · exact ⟨n + 1, by omega, by omega, Bool.eq_false_iff.mpr hn'⟩
  · exact ⟨n, le_rfl, by omega, Bool.eq_false_iff.mpr hn⟩

/-- Settles O45: from any boundary of a run, at most the present spell's whole latency is left. -/
theorem requestIsHonoured : Obligations.RequestIsHonoured := by
  intro p run hrun n
  obtain ⟨m, hle, hge, hm⟩ := exists_not_eligible hrun (Config.irqLatency (run n).episode) n (by omega)
  exact ⟨m, hle, hge, (run m).isEligible_eq_false_iff.mp hm⟩

end Sys2Proof.Machine
end

section
/-! PROOFS. The state reset leaves, for every launch (spec/70_reset_and_hazards.md R290), and the end of a run (R297). -/

namespace Sys2Proof.Machine

open Sys2Proof

/-! ### Launch memory (10_state.md R45) -/

/-- The last cell of an image decides for the address it names. -/
theorem lastNamed_concat (image : List Host.Cell) (c : Host.Cell) (a : Nat) :
    lastNamed (image ++ [c]) a = if c.1 = a then some c.2 else lastNamed image a := by
  by_cases hc : c.1 = a <;> simp [lastNamed, hc]

/-- A byte of memory after an image is loaded: the last one the image names for its address, else the old one. -/
theorem Memory.read_load {m : Memory} (h : m.wf = true ∧ m.inRam = true) (image : List Host.Cell) {a : Nat}
    (ha : a < Config.memSize) : (m.load image).read a = (lastNamed image a).getD (m.read a) := by
  induction image using List.reverseRecOn with
  | nil => rfl
  | append_singleton image c ih =>
    obtain ⟨hwf, -⟩ := Memory.load_wf_inRam h image
    rw [Memory.load_concat, lastNamed_concat]
    by_cases hc : c.1 = a
    · rw [if_pos (hc ▸ ha), Memory.read_write hwf, if_pos hc.symm, if_pos hc, Option.getD_some]
    · rw [if_neg hc, ← ih]
      split
      · rw [Memory.read_write hwf, if_neg (Ne.symm hc)]
      · rfl

/-- Memory that lists RAM only reads blank everywhere else. -/
theorem Memory.read_of_inRam {m : Memory} (h : m.inRam = true) {a : Nat} (ha : Config.memSize ≤ a) :
    m.read a = blankByte := by
  induction m with
  | nil => rfl
  | cons c m ih =>
    simp only [Memory.inRam, List.all_cons, Bool.and_eq_true, decide_eq_true_eq] at h
    obtain ⟨hc, hm⟩ := h
    rw [Memory.read, if_neg (by omega)]
    exact ih hm

theorem Memory.fill_ram_wf_inRam (ram : Vector Byte 0x1000) :
    (Memory.fill 0 ram.toList).wf = true ∧ (Memory.fill 0 ram.toList).inRam = true :=
  ⟨Memory.fill_wf 0 _, Memory.fill_inRam (by simp [Config.memSize])⟩

theorem Memory.read_fill_ram (ram : Vector Byte 0x1000) {a : Nat} (ha : a < 0x1000) :
    (Memory.fill 0 ram.toList).read a = ram[a] := by
  simp [Memory.read_fill, ha]

theorem State.launch_mem_wf_inRam (l : Launch) : (State.launch l).mem.wf = true ∧ (State.launch l).mem.inRam = true :=
  Memory.load_wf_inRam (Memory.fill_ram_wf_inRam l.ram) l.image

/-- Each byte of RAM and bitmap RAM at launch: the image's, else the launch's own (R45; the spec's own decision D18). -/
theorem State.launch_mem_read (l : Launch) {a : Nat} (ha : a < 0x1000) :
    (State.launch l).mem.read a = (lastNamed l.image a).getD l.ram[a] := by
  rw [← Memory.read_fill_ram l.ram ha]
  exact Memory.read_load (Memory.fill_ram_wf_inRam l.ram) l.image ha

/-! ### Launch registers (70_reset_and_hazards.md R290) -/

/-- Every register but x[0] starts with its launch value (10_state.md R33). -/
theorem State.launch_x (l : Launch) {r : RegIdx} (hr : r ≠ 0#5) : (State.launch l).x r = l.regs[r.toNat]'r.isLt := by
  have hne : 0 ≠ r.toNat := fun h => hr (BitVec.eq_of_toNat_eq h.symm)
  rw [State.x, if_neg hr]
  exact Vector.getElem_set_ne (Nat.zero_lt_succ 31) r.isLt hne

/-- Bits 7 and 6 of `ctrl` start clear (10_state.md R46), and bits 5 to 0 are the launch's. -/
theorem State.launch_ctrl (l : Launch) (j : Nat) :
    (State.launch l).ctrl.getLsbD j = if j < 6 then l.ctrlSpare.getLsbD j else false := by
  change (0#2 ++ l.ctrlSpare).getLsbD j = _
  rw [BitVec.getLsbD_append, BitVec.getLsbD_zero]

/-- No interrupt is requested right after reset: both devices' enables are off (R290). -/
theorem State.launch_irqRequest (l : Launch) : (State.launch l).irqRequest = false := by
  have htext : (State.launch l).irqText = false := by
    rw [State.irqText, State.launch_ctrl]
    rfl
  have hgpio : (State.launch l).irqGpio = false := by simp [State.irqGpio, State.launch]
  rw [State.irqRequest, htext, hgpio, Bool.or_false]

/-- Settles O53: the spec's reset values and the launch's own are the fields of `State.launch`; memory, registers and
`ctrl` by the lemmas above. -/
theorem resetForEveryLaunch : Obligations.ResetForEveryLaunch := fun l =>
  ⟨rfl, State.x_zero _, rfl, State.launch_ctrl l 7, State.launch_ctrl l 6, rfl, rfl, rfl, rfl, rfl,
    State.launch_irqRequest l, fun _ hr => State.launch_x l hr, rfl, rfl, rfl,
    fun _ ha => State.launch_mem_read l ha, fun _ ha => Memory.read_of_inRam (State.launch_mem_wf_inRam l).right ha,
    fun j hj => (State.launch_ctrl l j).trans (if_pos hj), rfl, rfl, rfl, rfl, rfl⟩

/-! ### The invariant after reset -/

/-- Settles O54: the loader keeps memory's form, x[0] is cleared, `pc` is 0 and nothing is waited for. -/
theorem invariantAfterEveryReset : Obligations.InvariantAfterEveryReset := fun l =>
  have ⟨hwf, hram⟩ := State.launch_mem_wf_inRam l
  { mem_wf := hwf
    mem_inRam := hram
    x0 := Vector.getElem_set_self _
    pc_aligned := rfl
    waiting := fun hw => absurd rfl hw }

/-- Settles O55: the named reset state is one launch. -/
theorem invariantAtReset : Obligations.InvariantAtReset := by
  rw [Obligations.InvariantAtReset, State.reset_eq_launch]
  exact invariantAfterEveryReset Launch.named

/-! ### The end of a run (70_reset_and_hazards.md R297) -/

/-- A host with nothing left to do does nothing. -/
theorem State.hostTurn_of_no_inputs {s : State} (h : s.inputs = []) : s.hostTurn = s := by
  rw [State.hostTurn, h]

/-- A jump to itself that writes no register leaves the whole state as it is. -/
theorem exec_jal_self {s : State} (h : isAligned4 s.pc = true) : exec (.jal 0#5 0#21) s = .next s := by
  have hpc : s.pc + immJ 0#21 = s.pc := BitVec.add_zero s.pc
  change s.linkAndGo 0#5 (s.pc + immJ 0#21) = _
  rw [hpc, State.linkAndGo, State.setX_zero]
  exact State.goTo_next.mpr ⟨h, rfl⟩

/-- Where nothing is requested the invariant says that nothing is waited for, so the boundary changes nothing. -/
theorem boundary_of_no_request {a : State} (ha : a.Inv) (h : a.irqRequest = false) (p : IrqPolicy) (b : State) :
    boundary p b a = a := by
  have hne : a.isEligible = false := a.isEligible_eq_false_iff.mpr (.inl h)
  have hw : a.waited = 0 := by
    by_contra hw
    exact Bool.false_ne_true (hne.symm.trans (ha.waiting hw))
  rw [boundary, hne, if_neg Bool.false_ne_true, if_pos hw]

/-- A machine that steps from a state to itself stays there. -/
theorem run_of_step_self {M : Host.Core} {s : M.State} (h : M.step s = .next s) (n : Nat) : M.run n s = .next s := by
  induction n with
  | zero => rfl
  | succ n ih => rw [Host.Core.run, h]; exact ih

/-- Settles O59: the host, the jump to itself and the boundary each leave the state as it is, so every further step does. -/
theorem terminalStateIsFinal : Obligations.TerminalStateIsFinal := by
  rintro s hs ⟨w, hf, hd, hreq⟩ hin
  have hstep : step s = .next s := by
    rw [step_of_decode hf hd, State.hostTurn_of_no_inputs hin, exec_jal_self hs.pc_aligned, mapNext_next,
      boundary_of_no_request hs hreq]
  exact ⟨hstep, fun n => ⟨s, run_of_step_self (M := Sys2Proof.core) hstep n⟩⟩

end Sys2Proof.Machine
end
